-- ==== Sys2Proof/Word.lean ====
section
/-! DEFINITION. The two word types of the engine (00_scope.md section 4: `u8` and `u32`). -/

namespace Sys2Proof

/-- `u8`: a data byte, a tag, a prediction. -/
abbrev Byte := BitVec 8

/-- `u32`: a register word, a data address as a register holds it, a row counter. -/
abbrev Word := BitVec 32

end Sys2Proof
end

