-- ==== Sys2Proof/Config.lean ====
section
/-! DEFINITION. What an implementation fixes (00_scope.md R9) and the free values (log 5). -/

namespace Sys2Proof.Config

/-- `BPP_SET` (R3, R9). -/
def bppSet : List Nat := [1, 2, 3, 4, 6, 8]

/-- Size of the data space: `ADDR_W` = 32 (R9, R46). -/
abbrev dataSpace : Nat := 4294967296

/-- Size in bytes of the register block (R9, R21). -/
def regBlockBytes : Nat := 64

/-- `SUB_W`, the block width of the parallel-prefix Sub unit: an open parameter whose default the
machine takes (R9, R161, D25). DESIGN CHOICE, log 11; unobservable by R166. -/
def subW : Nat := 16

/-- The widths R161 allows for `SUB_W`: a power of two, at least 8. -/
def subWAllowed (w : Nat) : Prop := 8 ≤ w ∧ ∃ k, w = 2 ^ k

/-- What a byte of data memory that nothing has written reads as. R48 gives no contents after
power-on. DESIGN CHOICE, log 3. -/
def unlistedByte : Byte := 0

/-- A FREE VALUE: the byte drawn at the n-th draw (R281, R244, R290). Log 5. -/
opaque freeByte : Nat → Byte

/-- A FREE VALUE: the word drawn at the n-th draw (the error record of R290). Log 5, log 6. -/
opaque freeWord : Nat → Word

end Sys2Proof.Config
end

