-- ==== Sys2Proof/Syntax.lean ====
section
/-! DEFINITION. The instruction set: the five filter kinds (R2, R92), and the scanline that carries
one of them with its payload (R90). -/

namespace Sys2Proof

/-- One constructor per row of spec/opcode_table.json. A filter has no immediate and no register
field: its operands are implicit (R95). -/
inductive Instr where
  /-- NONE, tag 0x00 (R120). -/
  | none
  /-- SUB, tag 0x01 (R121). -/
  | sub
  /-- UP, tag 0x02 (R122). -/
  | up
  /-- AVG, tag 0x03 (R123). -/
  | avg
  /-- PAETH, tag 0x04 (R124). -/
  | paeth
  deriving DecidableEq, Repr

/-- A scanline as data memory holds it (R90): its filter and its payload, the bytes after the tag. -/
structure Scanline where
  filter : Instr
  payload : List Byte
  deriving DecidableEq, Repr

end Sys2Proof
end

