-- ==== Sys2Proof/WellFormed.lean ====
section
/-! DEFINITION. What a well-formed scanline and a well-formed image are (R90, R96, R3, R10). A filter
alone has no operand field (R95), so every `Instr` is well formed. -/

namespace Sys2Proof

/-- A scanline is well formed for a stride `bpp` and a length `bpl`: `bpp` is legal (R3), the payload
is `bpl - 1` bytes (R96), at least one pixel, a whole number of pixels (R10). -/
def Scanline.wf (bpp bpl : Nat) (x : Scanline) : Bool :=
  Config.bppSet.contains bpp && (x.payload.length + 1 == bpl) && decide (0 < x.payload.length) &&
    (x.payload.length % bpp == 0)

/-- An image: at least one scanline, all of one length (R96), and no longer than the data space. -/
def imageWf (bpp bpl : Nat) (xs : List Scanline) : Bool :=
  decide (0 < xs.length) && xs.all (Scanline.wf bpp bpl) && decide (xs.length * bpl ≤ Config.dataSpace)

end Sys2Proof
end

