-- ==== Sys2Proof/Decode.lean ====
section
/-! DEFINITION. The 5-filter selector's decoder (R91 to R94), total on any bytes, and after it the
encoder, from the same table. -/

namespace Sys2Proof

/-- Why bytes are no scanline. -/
inductive DecodeError where
  /-- The tag is 5..255 (R93). -/
  | illegalTag (t : Byte)
  /-- Fewer bytes than a scanline has. -/
  | truncated
  deriving DecidableEq, Repr

/-- What the decoder answers. -/
inductive Decoded (α : Type) where
  | ok (a : α)
  | error (e : DecodeError)
  deriving DecidableEq, Repr

/-- The opcode map (R92, R94): the whole byte is the opcode (R91). -/
def decodeTag (t : Byte) : Decoded Instr :=
  match t.toNat with
  | 0 => .ok .none
  | 1 => .ok .sub
  | 2 => .ok .up
  | 3 => .ok .avg
  | 4 => .ok .paeth
  | _ => .error (.illegalTag t)

/-- One scanline of `bpl` bytes, and the bytes after it (R90, R96). -/
def decodeScanline (bpl : Nat) (bytes : List Byte) : Decoded (Scanline × List Byte) :=
  match bytes with
  | [] => .error .truncated
  | t :: rest =>
    match decodeTag t with
    | .error e => .error e
    | .ok f =>
      if rest.length < bpl - 1 then .error .truncated
      else .ok (⟨f, rest.take (bpl - 1)⟩, rest.drop (bpl - 1))

/-- `height` scanlines in a row (R90: row r's scanline follows row r-1's), and the bytes after them. -/
def decodeImage (bpl : Nat) : Nat → List Byte → Decoded (List Scanline × List Byte)
  | 0, bytes => .ok ([], bytes)
  | height + 1, bytes =>
    match decodeScanline bpl bytes with
    | .error e => .error e
    | .ok (x, rest) =>
      match decodeImage bpl height rest with
      | .error e => .error e
      | .ok (xs, rest') => .ok (x :: xs, rest')

/-- The bytes of a table word of `nbits` bits: bit 0 is the least significant bit of the first byte. -/
def wordBytes (nbits w : Nat) : List Byte :=
  (List.range (nbits / 8)).map fun k => BitVec.ofNat 8 (w >>> (8 * k))

/-- The instruction the decoder reads from a table word: its first byte is the tag. -/
def decodeTableWord (nbits w : Nat) : Option Instr :=
  match wordBytes nbits w with
  | [] => Option.none
  | t :: _ =>
    match decodeTag t with
    | .ok i => some i
    | .error _ => Option.none

/-- The tag of a filter (R92, opcode_table.json `match`). -/
def encodeTag : Instr → Byte
  | .none => 0x00
  | .sub => 0x01
  | .up => 0x02
  | .avg => 0x03
  | .paeth => 0x04

/-- A scanline's encoding: the tag byte followed by the payload bytes (R90, R97). -/
def encodeScanline (x : Scanline) : List Byte :=
  encodeTag x.filter :: x.payload

/-- A buffer: its scanlines one after the other (R90, R97). -/
def encodeImage : List Scanline → List Byte
  | [] => []
  | x :: xs => encodeScanline x ++ encodeImage xs

/-- The words of an instruction: a filter is its tag byte. -/
def encode (i : Instr) : List Byte := [encodeTag i]

end Sys2Proof
end

