-- ==== Sys2Proof/Machine/State.lean ====
section
/-! DEFINITION. The state of the engine, its data memory and its port, as plain data (10_state.md), the
reasons a step can stop, and the state after reset (R48). -/

namespace Sys2Proof.Machine

/-- STATUS.ERR_CODE (R28, R240). Codes 5 to 15 are never produced. -/
inductive ErrCode where
  | eNone
  | eTag
  | eGeom
  | eBpp
  | eMem
  deriving DecidableEq, Repr

/-- `eng.phase` (R40). -/
inductive Phase where
  | idle
  | check
  | scan
  | run
  deriving DecidableEq, Repr

/-- The stored fields of the register block (R21). CTRL.START and STATUS.BUSY have no storage: START
reads 0 (R22), BUSY is the phase (R25). -/
structure Regs where
  irqEn : Bool
  done : Bool
  err : Bool
  errCode : ErrCode
  bufBase : Word
  bufLen : Word
  height : Word
  bpl : Word
  bpp : BitVec 4
  errRow : Word
  errTag : Byte
  deriving DecidableEq, Repr

/-- `cfg`, the configuration snapshot taken at START (R40). -/
structure Cfg where
  base : Word
  len : Word
  height : Word
  bpl : Word
  bpp : BitVec 4
  deriving DecidableEq, Repr

/-- The registers of the parallel-prefix Sub unit (R161). Log 11. -/
structure SubUnit where
  v : List Byte
  carry : List Byte
  deriving DecidableEq, Repr

/-- The left and up-left registers of the pixel-serial datapath, one per lane (R126). Log 11. -/
structure Lanes where
  a : List Byte
  c : List Byte
  deriving DecidableEq, Repr

/-- The datapath registers of R43. -/
structure Datapath where
  sub : SubUnit
  lanes : Lanes
  deriving DecidableEq, Repr

/-- Data memory: (address, byte) pairs in the canonical form of `Memory.wf` (R60). -/
abbrev Memory := List Host.Cell

/-- The data addresses `lo ≤ a < hi`. -/
structure Region where
  lo : Nat
  hi : Nat
  deriving DecidableEq, Repr

/-- Where the platform answers an engine data access with an error response (R44, R244). Log 9. -/
structure PortErrors where
  reads : List Nat
  writes : List Nat
  deriving DecidableEq, Repr

/-- The size of a register access (R210); `other` is any access that is no single byte, halfword or
word, such as a burst that is not a sequence of word accesses. -/
inductive AccessSize where
  | byte
  | half
  | word
  | other
  deriving DecidableEq, Repr

/-- What the host gets back from its last action (log 17). -/
inductive Response where
  /-- Nothing was asked yet. -/
  | nothing
  /-- A write was accepted (a write that is ignored too, R218). -/
  | ack
  /-- The value of a register read (R211). -/
  | word (w : Word)
  /-- The value of a data read (R219). -/
  | data (b : Byte)
  /-- The bus-error response of R210. -/
  | busError
  /-- The level of `irq` that the host saw (R250). -/
  | irqLevel (b : Bool)
  deriving DecidableEq, Repr

/-- One thing the host or the platform does between two Engine steps (R212), or the Engine's own turn
(R180: host steps and Engine steps interleave in any order). Log 1. -/
inductive Event where
  /-- The Engine takes its next step. -/
  | engine
  /-- A register read at a byte offset from `REG_BASE` (R210, R211). -/
  | regRead (off : Nat) (size : AccessSize)
  /-- A register write at a byte offset from `REG_BASE` (R210, R213 to R218). -/
  | regWrite (off : Nat) (size : AccessSize) (w : Word)
  /-- The host reads one byte of data memory (R219). -/
  | dataRead (a : Word)
  /-- The host, or another bus master, writes one byte of data memory (R219, R290). -/
  | dataWrite (a : Word) (b : Byte)
  /-- The host takes the interrupt if `irq` is 1 (R75, R250). -/
  | takeIrq
  /-- The platform changes where it answers engine accesses with an error (R244). -/
  | portErrors (e : PortErrors)
  /-- One of the conditions of R291 or R292 befalls the running operation. Log 15. -/
  | regionConflict
  /-- The reset input (R280). -/
  | reset
  deriving DecidableEq, Repr

/-- The machine. -/
structure State where
  /-- The register block (R21). -/
  regs : Regs
  /-- `eng.phase` (R40). -/
  phase : Phase
  /-- `eng.r` (R40, R41). -/
  r : Word
  /-- `cfg` (R40). -/
  cfg : Cfg
  /-- The spec's model-only mark (R40, R290), sticky until reset. -/
  hazard : Bool
  /-- The datapath registers (R43). -/
  dp : Datapath
  /-- Data memory (R46, R60). -/
  mem : Memory
  /-- The model's own: the hazard struck the operation last started. Log 6. -/
  opHazard : Bool
  /-- The model's own: the regions of started operations whose end the host has not observed, less the bytes that
  a later observation or host write has made ordinary to the host's reads (R76). Log 7. -/
  unseen : List Region
  /-- The model's own: how many free values were drawn. Log 5. -/
  draws : Nat
  /-- The platform's answers. Log 9. -/
  errors : PortErrors
  /-- What the host got back last. Log 17. -/
  resp : Response
  /-- What the host and the platform do next. Log 1. -/
  inputs : List Event
  deriving DecidableEq, Repr

/-- Why a step stops. -/
inductive Fault where
  /-- Raised by the data-memory port (`portRead`, `portWrites`): an engine access at 2^32 or above, an address that does not
  exist (R46). Safe: no state whose geometry CHECK accepted reaches it (R184). Log 10. -/
  | outsideDataSpace
  deriving DecidableEq, Repr

/-- Why an instruction has no meaning. -/
inductive Refusal where
  /-- Raised by an arm of `exec` whose instruction is not modelled yet. Safe. No arm does. -/
  | notModelled (mnemonic : String)
  deriving DecidableEq, Repr

/-- Every register field 0 (R48). -/
def Regs.reset : Regs :=
  { irqEn := false, done := false, err := false, errCode := .eNone, bufBase := 0, bufLen := 0,
    height := 0, bpl := 0, bpp := 0, errRow := 0, errTag := 0 }

/-- Every field of the snapshot 0 (R48). -/
def Cfg.reset : Cfg := { base := 0, len := 0, height := 0, bpl := 0, bpp := 0 }

/-- The datapath registers all zero: R48 leaves them unspecified. DESIGN CHOICE, log 11. -/
def Datapath.reset : Datapath :=
  { sub := { v := List.replicate Config.subW 0, carry := List.replicate 8 0 },
    lanes := { a := List.replicate 8 0, c := List.replicate 8 0 } }

/-- The machine right after reset (R48), nothing written to data memory, nothing asked of it. -/
def State.reset : State :=
  { regs := Regs.reset, phase := .idle, r := 0, cfg := Cfg.reset, hazard := false,
    dp := Datapath.reset, mem := [], opHazard := false, unseen := [], draws := 0,
    errors := { reads := [], writes := [] }, resp := .nothing, inputs := [] }

end Sys2Proof.Machine
end

