-- ==== Sys2Proof/Machine/Flags.lean ====
section
/-! DEFINITION. The status flags (R39): their values, how a register word shows them, what clears
them, and the interrupt output. -/

namespace Sys2Proof.Machine

/-- The 4-bit code (R28, R240). -/
def ErrCode.bits : ErrCode → BitVec 4
  | .eNone => 0
  | .eTag => 1
  | .eGeom => 2
  | .eBpp => 3
  | .eMem => 4

/-- The code of a free word: every code that R240 produces, and no other (R290, log 6). -/
def ErrCode.ofFree (w : Word) : ErrCode :=
  match w.toNat % 5 with
  | 0 => .eNone
  | 1 => .eTag
  | 2 => .eGeom
  | 3 => .eBpp
  | _ => .eMem

/-- STATUS.BUSY: 1 exactly while the phase is not IDLE (R25). -/
def State.busy (s : State) : Bool := s.phase != .idle

/-- The interrupt output, a level: IRQ_EN and DONE (R250). -/
def State.irq (s : State) : Bool := s.regs.irqEn && s.regs.done

/-- A flag as bit n of a register word. -/
def flagBit (n : Nat) (b : Bool) : Word := if b then BitVec.ofNat 32 (2 ^ n) else 0

/-- CTRL as it reads: IRQ_EN in bit 1, START and the reserved bits 0 (R21, R22, R24). -/
def State.ctrlWord (s : State) : Word := flagBit 1 s.regs.irqEn

/-- STATUS as it reads: BUSY, DONE, ERR in bits 0 to 2, ERR_CODE in bits 11:8, the rest 0 (R21, R29). -/
def State.statusWord (s : State) : Word :=
  flagBit 0 s.busy ||| flagBit 1 s.regs.done ||| flagBit 2 s.regs.err |||
    ((s.regs.errCode.bits.setWidth 32) <<< 8)

/-- A STATUS write: bit 1 clears DONE, bit 2 clears ERR, all else is ignored (R216). -/
def Regs.clearFlags (w : Word) (g : Regs) : Regs :=
  { g with done := g.done && !w.getLsbD 1, err := g.err && !w.getLsbD 2 }

/-- The completion record of `finish` (R190): DONE, ERR, ERR_CODE, ERR_ROW and ERR_TAG together. -/
def Regs.complete (code : ErrCode) (row : Word) (tag : Byte) (g : Regs) : Regs :=
  { g with done := true, err := code != .eNone, errCode := code, errRow := row, errTag := tag }

/-- What an accepted START does to the record: all of it 0 (R213). -/
def Regs.clearRecord (g : Regs) : Regs :=
  { g with done := false, err := false, errCode := .eNone, errRow := 0, errTag := 0 }

end Sys2Proof.Machine
end

