-- ==== Sys2Proof/Machine/Predictors.lean ====
section
/-! DEFINITION. The Paeth and Avg predictors (41_predictors.md): the reference forms, which the machine
uses, and the circuits R145, R146 and R147 give beside them. -/

namespace Sys2Proof.Machine

/-- `|x - y|` on exact integers. -/
def absDiff (x y : Int) : Nat := (x - y).natAbs

/-- Paeth's reference definition (R141), ties a, then b, then c (R142). The distances are exact. -/
def paeth (a b c : Byte) : Byte :=
  let pa := absDiff b.toNat c.toNat
  let pb := absDiff a.toNat c.toNat
  let pc := absDiff (a.toNat + b.toNat) (2 * c.toNat)
  if pa ≤ pb ∧ pa ≤ pc then a
  else if pb ≤ pc then b
  else c

/-- The smaller byte. -/
def minByte (a b : Byte) : Byte := if a.toNat ≤ b.toNat then a else b

/-- The larger byte. -/
def maxByte (a b : Byte) : Byte := if a.toNat ≤ b.toNat then b else a

/-- The branch-free form of R146, on exact integers. -/
def paethBF (a b c : Byte) : Byte :=
  let mn := minByte a b
  let mx := maxByte a b
  let lo : Int := mn.toNat - c.toNat
  let hi : Int := mx.toNat - c.toNat
  let d : Int := ((mx.toNat - mn.toNat) / 3 : Nat)
  if 0 ≤ lo + d then mx
  else if 0 ≤ d - hi then mn
  else c

/-- The mask realisation of R147, in 16-bit two's complement with arithmetic shifts of sign bits. -/
def paethMask (a b c : Byte) : Byte :=
  let mn : BitVec 16 := (minByte a b).setWidth 16
  let mx : BitVec 16 := (maxByte a b).setWidth 16
  let c16 : BitVec 16 := c.setWidth 16
  let lo := mn - c16
  let hi := mx - c16
  let d := (mx - mn) / 3
  let m1 := (lo + d).sshiftRight 15
  let m2 := (d - hi).sshiftRight 15
  let p := (~~~m1 &&& mx) ||| (m1 &&& ~~~m2 &&& mn) ||| (m1 &&& m2 &&& c16)
  p.setWidth 8

/-- `AvgPred(a, b) = floor((a + b) / 2)` on the exact 9-bit sum (R145, 90_conflicts.md C1). -/
def avgPred (a b : Byte) : Byte := BitVec.ofNat 8 ((a.toNat + b.toNat) / 2)

/-- The 8-bit-only form of R145. -/
def avgPred8 (a b : Byte) : Byte := (a &&& b) + ((a ^^^ b) >>> 1)

end Sys2Proof.Machine
end

