-- ==== Sys2Proof/Machine/Operands.lean ====
section
/-! DEFINITION. The operands of a payload byte (R111) and the 5-filter selector (R113). -/

namespace Sys2Proof.Machine

/-- Left, up and up-left (R111). -/
structure Operands where
  a : Byte
  b : Byte
  c : Byte
  deriving DecidableEq, Repr

/-- The operands of payload byte `i` (R111): `raw` is the row so far, `up` the row above, a missing
neighbour is 0. -/
def operands (i bpp : Nat) (first : Bool) (up raw : List Byte) : Operands :=
  { a := if bpp ≤ i then raw.getD (i - bpp) 0 else 0
    b := if first then 0 else up.getD i 0
    c := if first then 0 else if bpp ≤ i then up.getD (i - bpp) 0 else 0 }

/-- The prediction a filter makes of its operands (R113). -/
def select (f : Instr) (o : Operands) : Byte :=
  match f with
  | .none => 0
  | .sub => o.a
  | .up => o.b
  | .avg => avgPred o.a o.b
  | .paeth => paeth o.a o.b o.c

/-- Whether RUN reads the row above for a filter: tags 2, 3 and 4 (R185). -/
def readsUp (f : Instr) : Bool :=
  match f with
  | .none => false
  | .sub => false
  | .up => true
  | .avg => true
  | .paeth => true

end Sys2Proof.Machine
end

