-- ==== Sys2Proof/Machine/PixelLanes.lean ====
section
/-! DEFINITION. The pixel-serial datapath of AVG and PAETH (R125, R126): the `bpp` lanes of one pixel at
once, pixel after pixel. -/

namespace Sys2Proof.Machine

/-- The row so far and the lane registers `A` and `C` (R126). -/
structure LaneRun where
  raw : List Byte
  lanes : Lanes
  deriving DecidableEq, Repr

/-- The byte above lane `l` of pixel `k` (R126). -/
def pixelUp (bpp : Nat) (first : Bool) (up : List Byte) (k l : Nat) : Byte :=
  if first then 0 else up.getD (k * bpp + l) 0

/-- One pixel: every lane predicts from its own registers, then both are loaded (R126). -/
def pixelStep (f : Instr) (bpp : Nat) (first : Bool) (up cod : List Byte) (st : LaneRun) (k : Nat) :
    LaneRun :=
  let pixel := (List.range bpp).map fun l =>
    cod.getD (k * bpp + l) 0 +
      select f { a := st.lanes.a.getD l 0, b := pixelUp bpp first up k l, c := st.lanes.c.getD l 0 }
  { raw := st.raw ++ pixel
    lanes := { a := pixel, c := (List.range bpp).map (pixelUp bpp first up k) } }

/-- The whole row, pixel after pixel, both registers 0 at its start (R126). -/
def pixelSerialRun (f : Instr) (bpp : Nat) (first : Bool) (up cod : List Byte) : LaneRun :=
  (List.range (cod.length / bpp)).foldl (pixelStep f bpp first up cod)
    { raw := [], lanes := { a := List.replicate bpp 0, c := List.replicate bpp 0 } }

/-- What a row leaves in the datapath registers (R43): SUB uses the prefix unit (R160), AVG and PAETH the
lanes (R125), NONE and UP neither. Log 11. -/
def laneRegisters (f : Instr) (bpp : Nat) (first : Bool) (up cod : List Byte) (old : Lanes) : Lanes :=
  match f with
  | .none => old
  | .sub => old
  | .up => old
  | .avg => (pixelSerialRun .avg bpp first up cod).lanes
  | .paeth => (pixelSerialRun .paeth bpp first up cod).lanes

end Sys2Proof.Machine
end

