-- ==== Sys2Proof/Machine/Reference.lean ====
section
/-! DEFINITION. The row recurrence `DefilterRow` (R110), the reference every circuit must equal (R115). -/

namespace Sys2Proof.Machine

/-- `DefilterRow` from the bytes `raw` already reconstructed on: strictly left to right (R110), an 8-bit
add without carry out (R112). -/
def defilterFrom (f : Instr) (bpp : Nat) (first : Bool) (up raw : List Byte) : List Byte → List Byte
  | [] => raw
  | cod :: rest =>
    defilterFrom f bpp first up
      (raw ++ [cod + select f (operands raw.length bpp first up raw)]) rest

/-- `DefilterRow(t, bpp, first, up, cod)` (R110). -/
def defilterRow (f : Instr) (bpp : Nat) (first : Bool) (up cod : List Byte) : List Byte :=
  defilterFrom f bpp first up [] cod

end Sys2Proof.Machine
end

