-- ==== Sys2Proof/Machine/SubUnit.lean ====
section
/-! DEFINITION. The parallel-prefix Sub unit (42_sub_prefix_unit.md): blocks of `SUB_W` bytes, a doubling
scan inside each, a carry from the block before. -/

namespace Sys2Proof.Machine

/-- The row so far and the unit's registers (R161). -/
structure SubRun where
  raw : List Byte
  unit : SubUnit
  deriving DecidableEq, Repr

/-- Load a block (R163): valid lanes from the row, the rest 0. -/
def subLoad (w s n : Nat) (cod : List Byte) : List Byte :=
  (List.range w).map fun j => if j < n then cod.getD (s + j) 0 else 0

/-- One step of the scan at distance `k` (R163): element j receives element j - k. -/
def subShiftAdd (k : Nat) (v : List Byte) : List Byte :=
  (List.range v.length).map fun j => v.getD j 0 + (if k ≤ j then v.getD (j - k) 0 else 0)

/-- `t` steps of the scan, at distances k, 2k, 4k, ... (R165). -/
def subScanSteps : Nat → Nat → List Byte → List Byte
  | 0, _, v => v
  | t + 1, k, v => subScanSteps t (2 * k) (subShiftAdd k v)

/-- The scan: double the distance while it is below the block width (R163). `fuel` bounds the doublings. -/
def subScan (w : Nat) : Nat → Nat → List Byte → List Byte
  | 0, _, v => v
  | fuel + 1, k, v => if k < w then subScan w fuel (2 * k) (subShiftAdd k v) else v

/-- The carry (R164): the last `bpp` results before the block, by lane; 0 before the first block. -/
def subCarry (bpp s : Nat) (raw : List Byte) : List Byte :=
  (List.range bpp).map fun l => if 0 < s then raw.getD (s - bpp + l) 0 else 0

/-- One block (R163): load, scan, carry, write back the valid lanes only (R167). -/
def subBlock (w bpp : Nat) (cod : List Byte) (st : SubRun) (q : Nat) : SubRun :=
  let s := q * w
  let n := min w (cod.length - s)
  let v := subScan w w bpp (subLoad w s n cod)
  let carry := subCarry bpp s st.raw
  { raw := st.raw ++ (List.range n).map fun j => v.getD j 0 + carry.getD (j % bpp) 0
    unit := { v := v, carry := carry } }

/-- How many blocks a row has: `ceil(L / SUB_W)` (R162). -/
def subBlocks (w len : Nat) : Nat := (len + (w - 1)) / w

/-- The whole row, block after block, with the registers it leaves (R162, R163). -/
def subPrefixRun (w bpp : Nat) (cod : List Byte) (unit : SubUnit) : SubRun :=
  (List.range (subBlocks w cod.length)).foldl (subBlock w bpp cod) { raw := [], unit := unit }

/-- `SubPrefixRow(bpp, cod)` (R163). -/
def subPrefixRow (w bpp : Nat) (cod : List Byte) : List Byte :=
  (subPrefixRun w bpp cod { v := [], carry := [] }).raw

end Sys2Proof.Machine
end

