-- ==== Sys2Proof/Machine/Ops.lean ====
section
/-! DEFINITION. The named operations over data memory, the data-memory port, the rows of the region, the
free values, and the one shared way an operation ends (R190, R246). -/

namespace Sys2Proof.Machine

/-! ### Data memory (R60) -/

/-- `MemRead(addr, 1)` (R60). -/
def Memory.read (m : Memory) (a : Nat) : Byte :=
  match m with
  | [] => Config.unlistedByte
  | (k, v) :: rest => if k = a then v else Memory.read rest a

/-- `MemWrite(addr, 1, v)` (R60), keeping the canonical form: writing what an unlisted address reads as
removes the entry. -/
def Memory.write (m : Memory) (a : Nat) (b : Byte) : Memory :=
  match m with
  | [] => if b = Config.unlistedByte then [] else [(a, b)]
  | (k, v) :: rest =>
    if a < k then (if b = Config.unlistedByte then (k, v) :: rest else (a, b) :: (k, v) :: rest)
    else if a = k then (if b = Config.unlistedByte then rest else (a, b) :: rest)
    else (k, v) :: Memory.write rest a b

/-- The canonical form from an address on: addresses strictly rising and inside the data space, no entry
equal to what an unlisted address reads as. -/
def Memory.wfFrom (lo : Nat) (m : Memory) : Bool :=
  match m with
  | [] => true
  | (k, v) :: rest =>
    decide (lo ≤ k) && decide (k < Config.dataSpace) && (v != Config.unlistedByte) &&
      Memory.wfFrom (k + 1) rest

/-- The canonical form. -/
def Memory.wf (m : Memory) : Bool := Memory.wfFrom 0 m

/-- Consecutive bytes from an address on. -/
def Memory.writeBytes (m : Memory) (a : Nat) : List Byte → Memory
  | [] => m
  | b :: rest => Memory.writeBytes (Memory.write m a b) (a + 1) rest

/-! ### Regions and rows (R61, R184) -/

/-- Whether a data address is in a region. -/
def Region.has (g : Region) (a : Nat) : Bool := decide (g.lo ≤ a) && decide (a < g.hi)

/-- The part of a region outside another: what lies below it and what lies above it, where there is any. -/
def Region.minus (g h : Region) : List Region :=
  [{ lo := g.lo, hi := min g.hi h.lo }, { lo := max g.lo h.hi, hi := g.hi }].filter fun p => decide (p.lo < p.hi)

/-- The parts of some regions outside another. -/
def uncover (h : Region) (gs : List Region) : List Region := gs.flatMap fun g => g.minus h

/-- The region of an operation (R61), exact (R184). -/
def Cfg.region (c : Cfg) : Region :=
  { lo := c.base.toNat, hi := c.base.toNat + c.height.toNat * c.bpl.toNat }

/-- `rowbase(r) = cfg.base + r * cfg.bpl`, exact (R184, R186). -/
def Cfg.rowBase (c : Cfg) (r : Nat) : Nat := c.base.toNat + r * c.bpl.toNat

/-- The payload length `L = cfg.bpl - 1` (R96). -/
def Cfg.payloadLen (c : Cfg) : Nat := c.bpl.toNat - 1

/-- The address of payload byte 0 of row r; byte i is `i` above it (R184). -/
def Cfg.payloadAt (c : Cfg) (r : Nat) : Nat := c.rowBase r + 1

/-- The payload bytes of row r in a memory. -/
def Memory.payload (m : Memory) (c : Cfg) (r : Nat) : List Byte :=
  (List.range c.payloadLen).map fun i => m.read (c.payloadAt r + i)

/-- The state with the rest of what the host and the platform do next (log 1). -/
def State.withInputs (rest : List Event) (s : State) : State := { s with inputs := rest }

/-! ### Free values (log 5) -/

/-- How many bytes of a region exist: the data space ends at 2^32 (log 13). -/
def Region.existing (g : Region) : Nat := min g.hi Config.dataSpace - g.lo

/-- The part of a region that exists. -/
def Region.clip (g : Region) : Region := { lo := g.lo, hi := g.lo + g.existing }

/-- `n` free bytes from draw `d` on. -/
def freeBytes (d n : Nat) : List Byte := (List.range n).map fun k => Config.freeByte (d + k)

/-- Every byte of the operation's region is drawn (R244, R281, R290). -/
def State.drawRegion (s : State) : State :=
  { s with
    mem := s.mem.writeBytes s.cfg.region.lo (freeBytes s.draws s.cfg.region.existing)
    draws := s.draws + s.cfg.region.existing }

/-- Datapath registers whose contents the spec leaves open are drawn (R43, log 12). -/
def State.drawDatapath (s : State) : State :=
  { s with
    dp :=
      { sub :=
          { v := freeBytes s.draws Config.subW, carry := freeBytes (s.draws + Config.subW) 8 }
        lanes :=
          { a := freeBytes (s.draws + Config.subW + 8) 8
            c := freeBytes (s.draws + Config.subW + 16) 8 } }
    draws := s.draws + Config.subW + 24 }

/-- A tag byte ERR_TAG can record: 0 or 5..255 (R36). -/
def recordableTag (b : Byte) : Byte := if b.toNat < 5 then 0 else b

/-- A row ERR_ROW can record: a row of the operation, or 0 (R35). -/
def recordableRow (height w : Word) : Word := if w.toNat < height.toNat then w else 0

/-! ### Ending an operation: the engine's only "exception" (R190, R246) -/

/-- `finish(code, row, tag)` (R190). -/
def finish (code : ErrCode) (row : Word) (tag : Byte) (s : State) : State :=
  { s with phase := .idle, regs := s.regs.complete code row tag }

/-- The end of an operation the hazard struck (R290): every region byte drawn, and an error record of any
values the engine can record. Log 6. -/
def finishHazard (s : State) : State :=
  let t := s.drawRegion
  finish (ErrCode.ofFree (Config.freeWord t.draws))
    (recordableRow t.cfg.height (Config.freeWord (t.draws + 1)))
    (recordableTag (Config.freeByte (t.draws + 2))) { t with draws := t.draws + 3 }

/-- How every operation ends: `finish` (R190), unless the hazard struck it (R290). `raise E_X(row, tag)`
is this with code E_X (R246). -/
def endOperation (code : ErrCode) (row : Word) (tag : Byte) (s : State) : State :=
  if s.opHazard then finishHazard s else finish code row tag s

/-- `raise E_MEM(eng.r, 0)` (R188, R244): every region byte is drawn. -/
def raiseMem (s : State) : State :=
  endOperation .eMem s.r 0 s.drawRegion.drawDatapath

/-! ### The data-memory port (R44) -/

/-- Why an engine access gave no data. -/
inductive PortFail where
  /-- The platform answered with an error response (R244). -/
  | errorResponse
  /-- There is no such address (R46). -/
  | outside
  deriving DecidableEq, Repr

/-- What a run of engine accesses gave. -/
inductive PortAnswer (α : Type) where
  | ok (a : α)
  | failed (e : PortFail)
  deriving DecidableEq, Repr

/-- One engine read (R44, R60). -/
def State.portRead (s : State) (a : Nat) : PortAnswer Byte :=
  if Config.dataSpace ≤ a then .failed .outside
  else if s.errors.reads.contains a then .failed .errorResponse
  else .ok (s.mem.read a)

/-- `n` engine reads from an address on, in rising order; the first that fails ends them (R188). -/
def State.portReads (s : State) (a : Nat) : Nat → PortAnswer (List Byte)
  | 0 => .ok []
  | n + 1 =>
    match s.portRead a with
    | .failed e => .failed e
    | .ok b =>
      match State.portReads s (a + 1) n with
      | .failed e => .failed e
      | .ok rest => .ok (b :: rest)

/-- Engine writes from an address on, in rising order; the first that fails ends them (R188). -/
def PortErrors.portWrites (e : PortErrors) (m : Memory) (a : Nat) : List Byte → PortAnswer Memory
  | [] => .ok m
  | b :: rest =>
    if Config.dataSpace ≤ a then .failed .outside
    else if e.writes.contains a then .failed .errorResponse
    else PortErrors.portWrites e (m.write a b) (a + 1) rest

/-- What a failed engine access does: E_MEM (R188), or a stop at an address that does not exist (log 10). -/
def portFailure (e : PortFail) (s : State) : Host.Outcome State Fault Refusal :=
  match e with
  | .errorResponse => .next (raiseMem s)
  | .outside => .fault .outsideDataSpace

/-! ### A row of RUN (R185) -/

/-- The end of a RUN step: the next row, or completion after the last (R185). -/
def nextRow (s : State) : State :=
  let t := { s with r := s.r + 1 }
  if t.r = t.cfg.height then endOperation .eNone 0 0 t else t

/-- What the row leaves in the datapath registers (R43). Log 11. -/
def Datapath.afterRow (f : Instr) (bpp : Nat) (first : Bool) (up cod : List Byte) (d : Datapath) :
    Datapath :=
  { sub := if f = .sub then (subPrefixRun Config.subW bpp cod d.sub).unit else d.sub
    lanes := laneRegisters f bpp first up cod d.lanes }

/-- How many bytes of the row above RUN reads: none for row 0 (R70) and none for SUB (R185). -/
def upReads (f : Instr) (s : State) : Nat :=
  if readsUp f ∧ 0 < s.r.toNat then s.cfg.payloadLen else 0

/-- RUN's work on row `eng.r` for a tag other than 0 (R185): read the coded bytes, read the row above
where the filter uses it, reconstruct, write the row, go on. -/
def reconstructRow (f : Instr) (s : State) : Host.Outcome State Fault Refusal :=
  match s.portReads (s.cfg.payloadAt s.r.toNat) s.cfg.payloadLen with
  | .failed e => portFailure e s
  | .ok cod =>
    match s.portReads (s.cfg.payloadAt (s.r.toNat - 1)) (upReads f s) with
    | .failed e => portFailure e s
    | .ok up =>
      let bpp := s.cfg.bpp.toNat
      let first := decide (s.r.toNat = 0)
      match s.errors.portWrites s.mem (s.cfg.payloadAt s.r.toNat)
          (defilterRow f bpp first up cod) with
      | .failed e => portFailure e s
      | .ok m => .next (nextRow { s with mem := m, dp := s.dp.afterRow f bpp first up cod })

end Sys2Proof.Machine
end

