-- ==== Sys2Proof/Machine/Filters.lean ====
section
/-! DEFINITION. The meanings of the five filters (R120 to R124): what RUN does with the scanline of row
`eng.r` once its tag is decoded (R185). -/

namespace Sys2Proof.Machine

/-- NONE (R120): every payload byte already holds its result, so the engine issues no access. -/
def execNone (s : State) : Host.Outcome State Fault Refusal := .next (nextRow s)

/-- SUB (R121). -/
def execSub (s : State) : Host.Outcome State Fault Refusal := reconstructRow .sub s

/-- UP (R122). -/
def execUp (s : State) : Host.Outcome State Fault Refusal := reconstructRow .up s

/-- AVG (R123). -/
def execAvg (s : State) : Host.Outcome State Fault Refusal := reconstructRow .avg s

/-- PAETH (R124). -/
def execPaeth (s : State) : Host.Outcome State Fault Refusal := reconstructRow .paeth s

end Sys2Proof.Machine
end

