-- ==== Sys2Proof/Machine/Sequencer.lean ====
section
/-! DEFINITION. The row sequencer (43_sequencer.md): the CHECK, SCAN and RUN steps of the Engine. -/

namespace Sys2Proof.Machine

/-- `cfg.bpp` is legal (R3, R243). -/
def Cfg.bppOk (c : Cfg) : Bool := Config.bppSet.contains c.bpp.toNat

/-- `GeomOK(cfg)` (R242), exact (D41). -/
def Cfg.geomOk (c : Cfg) : Bool :=
  decide (1 ≤ c.height.toNat) &&
  decide (1 + c.bpp.toNat ≤ c.bpl.toNat) &&
  ((c.bpl.toNat - 1) % c.bpp.toNat == 0) &&
  decide (c.height.toNat * c.bpl.toNat ≤ c.len.toNat) &&
  decide (c.base.toNat + c.height.toNat * c.bpl.toNat ≤ Config.dataSpace)

/-- The CHECK step (R182): E_BPP before E_GEOM (R245), no data access. -/
def checkStep (s : State) : State :=
  if !s.cfg.bppOk then endOperation .eBpp 0 0 s
  else if !s.cfg.geomOk then endOperation .eGeom 0 0 s
  else { s with phase := .scan, r := 0 }

/-- The end of a SCAN step: the next row's tag, or RUN after the last (R183). -/
def nextTag (s : State) : State :=
  let t := { s with r := s.r + 1 }
  if t.r = t.cfg.height then { t with phase := .run, r := 0 } else t

/-- The SCAN step (R183): row `eng.r`'s tag is read and decoded, nothing is written. -/
def scanStep (s : State) : Host.Outcome State Fault Refusal :=
  match s.portRead (s.cfg.rowBase s.r.toNat) with
  | .failed e => portFailure e s
  | .ok t =>
    match decodeTag t with
    | .error _ => .next (endOperation .eTag s.r t s)
    | .ok _ => .next (nextTag s)

/-- The RUN step (R185): row `eng.r`'s tag is read again; a legal one runs its filter, another ends the
operation (R189). -/
def runStep (s : State) : Host.Outcome State Fault Refusal :=
  match s.portRead (s.cfg.rowBase s.r.toNat) with
  | .failed e => portFailure e s
  | .ok t =>
    match decodeTag t with
    | .error _ => .next (endOperation .eTag s.r t s)
    | .ok i => exec i s

/-- One Engine step (R180). In IDLE the Engine has none (R181): the state stays (log 2). -/
def engineStep (s : State) : Host.Outcome State Fault Refusal :=
  match s.phase with
  | .idle => .next s
  | .check => .next (checkStep s)
  | .scan => scanStep s
  | .run => runStep s

end Sys2Proof.Machine
end

