-- ==== Sys2Proof/Machine/HostPort.lean ====
section
/-! DEFINITION. What the host and the platform do to the engine (44_host_interface.md, R250, R280, R290),
each indivisible between two Engine steps (R212). -/

namespace Sys2Proof.Machine

/-- A register access is defined when it is a word access at a word offset of the block (R210). -/
def regAccessOk (off : Nat) (size : AccessSize) : Bool :=
  (size == .word) && (off % 4 == 0) && decide (off < Config.regBlockBytes)

/-- The value a register reads (R211, R21); reserved offsets read 0 (R37). -/
def State.regValue (s : State) (off : Nat) : Word :=
  match off with
  | 0x00 => s.ctrlWord
  | 0x04 => s.statusWord
  | 0x08 => s.regs.bufBase
  | 0x0C => s.regs.bufLen
  | 0x10 => s.regs.height
  | 0x14 => s.regs.bpl
  | 0x18 => s.regs.bpp.setWidth 32
  | 0x1C => s.regs.errRow
  | 0x20 => s.regs.errTag.setWidth 32
  | _ => 0

/-- The host learns that the operation last started has ended: its region is the host's to read from now on
(R75, R221), and the bytes of an earlier operation outside it are not (R76). Log 7. -/
def State.observeDone (seen : Bool) (s : State) : State :=
  { s with unseen := if seen then uncover s.cfg.region s.unseen else s.unseen }

/-- A host register read (R211): no side effect on the engine; a read of STATUS that shows DONE is the
acquire point of R75. -/
def hostRegRead (off : Nat) (size : AccessSize) (s : State) : State :=
  if regAccessOk off size then
    { s.observeDone (decide (off = 0x04) && s.regs.done) with resp := .word (s.regValue off) }
  else { s with resp := .busError }

/-- The snapshot an accepted START takes (R213). -/
def Regs.snapshot (g : Regs) : Cfg :=
  { base := g.bufBase, len := g.bufLen, height := g.height, bpl := g.bpl, bpp := g.bpp }

/-- An accepted START, in one indivisible step (R213), with the new value of IRQ_EN. From here on the region's
bytes are open to the host's reads (R76, log 7). -/
def startOperation (irqEn : Bool) (s : State) : State :=
  { s with
    regs := { s.regs.clearRecord with irqEn := irqEn }
    cfg := s.regs.snapshot
    r := 0
    phase := .check
    opHazard := false
    unseen := s.regs.snapshot.region.clip :: s.unseen }

/-- A CTRL write (R213, R215): bit 1 sets IRQ_EN always; bit 0 starts an operation unless busy. -/
def writeCtrl (w : Word) (s : State) : State :=
  if !s.busy && w.getLsbD 0 then startOperation (w.getLsbD 1) s
  else { s with regs := { s.regs with irqEn := w.getLsbD 1 } }

/-- A write to a configuration register while idle (R217). -/
def Regs.configure (off : Nat) (w : Word) (g : Regs) : Regs :=
  match off with
  | 0x08 => { g with bufBase := w }
  | 0x0C => { g with bufLen := w }
  | 0x10 => { g with height := w }
  | 0x14 => { g with bpl := w }
  | 0x18 => { g with bpp := w.setWidth 4 }
  | _ => g

/-- A register write by offset: CTRL (R213, R215), STATUS (R216), the configuration, ignored while busy
(R217, R38), and the read-only registers and reserved offsets, ignored (R218). -/
def writeReg (off : Nat) (w : Word) (s : State) : State :=
  match off with
  | 0x00 => writeCtrl w s
  | 0x04 => { s with regs := s.regs.clearFlags w }
  | _ => { s with regs := if s.busy then s.regs else s.regs.configure off w }

/-- A host register write. -/
def hostRegWrite (off : Nat) (size : AccessSize) (w : Word) (s : State) : State :=
  if regAccessOk off size then { writeReg off w s with resp := .ack }
  else { s with resp := .busError }

/-- A region byte of the running operation (R290). -/
def State.busyRegion (s : State) (a : Nat) : Bool := s.busy && s.cfg.region.has a

/-- A host read of this byte is unspecified: one of the running operation's region (R290), or of the region of
an operation, the last or an earlier one, whose completion the host has not observed (R76, R294). Log 7. -/
def State.readIsOpen (s : State) (a : Nat) : Bool :=
  s.busyRegion a || s.unseen.any fun g => g.has a

/-- A host data read (R219), or a free value where the spec leaves it open (R290). -/
def hostDataRead (a : Word) (s : State) : State :=
  if s.readIsOpen a.toNat then
    { s with resp := .data (Config.freeByte s.draws), draws := s.draws + 1 }
  else { s with resp := .data (s.mem.read a.toNat) }

/-- The hazard strikes the running operation: the sticky mark (R290), and the model's own (log 6). -/
def State.markHazard (s : State) : State := { s with hazard := true, opHazard := true }

/-- A byte of the region of an operation whose end the host can still observe: it runs, or DONE is still 1. -/
def State.endObservable (s : State) (a : Nat) : Bool := (s.busy || s.regs.done) && s.cfg.region.has a

/-- A data write by the host or another master (R219). To a region byte while busy it is the hazard of R290.
Where the end of the byte's operation is yet to be observed, the host's reads of it stay open (R76); any other byte
is ordinary from now on, and the host reads back what it wrote (log 7, log 24). -/
def hostDataWrite (a : Word) (b : Byte) (s : State) : State :=
  let t := if s.busyRegion a.toNat then s.markHazard else s
  { t with
    mem := s.mem.write a.toNat b
    unseen :=
      if s.endObservable a.toNat then s.unseen else uncover { lo := a.toNat, hi := a.toNat + 1 } s.unseen
    resp := .ack }

/-- The host takes the interrupt if it is raised: the other acquire point of R75. -/
def hostTakeIrq (s : State) : State :=
  { s.observeDone s.irq with resp := .irqLevel s.irq }

/-- A conflict of R291 or R292 while an operation runs is the hazard of R290 (log 15). -/
def conflict (s : State) : State := if s.busy then s.markHazard else s

/-- The reset input (R280). An operation it aborts leaves its region drawn, each byte holding its draw, and no
`finish` runs (R281).
The datapath registers hold an unspecified value after it (R48, log 12). Data memory is otherwise left
alone. DESIGN CHOICE, log 24: the region of a completed operation that the host has not observed stays `unseen`,
although the DONE that would end this is gone; host reads of it stay free. -/
def resetEngine (s : State) : State :=
  let t := if s.busy then { s.drawRegion with unseen := uncover s.cfg.region s.unseen } else s
  { t.drawDatapath with
    regs := Regs.reset, phase := .idle, r := 0, cfg := Cfg.reset, hazard := false, opHazard := false,
    resp := .nothing }

/-- What one event does. -/
def takeEvent (e : Event) (s : State) : Host.Outcome State Fault Refusal :=
  match e with
  | .engine => engineStep s
  | .regRead off size => .next (hostRegRead off size s)
  | .regWrite off size w => .next (hostRegWrite off size w s)
  | .dataRead a => .next (hostDataRead a s)
  | .dataWrite a b => .next (hostDataWrite a b s)
  | .takeIrq => .next (hostTakeIrq s)
  | .portErrors errs => .next { s with errors := errs }
  | .regionConflict => .next (conflict s)
  | .reset => .next (resetEngine s)

/-- The six register writes of the shorthand `RUN(base, len, height, bpl, bpp, irq_en)` (R98); its `WAIT
DONE` is any number of `readStatus` or one `takeIrq` after them. -/
def runShorthand (base len height bpl bpp : Word) (irqEn : Bool) : List Event :=
  [.regWrite 0x08 .word base, .regWrite 0x0C .word len, .regWrite 0x10 .word height,
   .regWrite 0x14 .word bpl, .regWrite 0x18 .word bpp,
   .regWrite 0x00 .word (if irqEn then 3 else 1)]

/-- `RD STATUS` (R97). -/
def readStatus : Event := .regRead 0x04 .word

/-! ### Placing a scanline where RUN takes its next (log 4) -/

/-- The next step is a RUN step of a checked operation, and no error response is in its way. -/
def State.atRow (s : State) : Bool :=
  s.inputs.isEmpty && (s.phase == .run) && s.cfg.bppOk && s.cfg.geomOk &&
    decide (s.r.toNat < s.cfg.height.toNat) && s.errors.reads.isEmpty && s.errors.writes.isEmpty

/-- The registers a host programs for one row of `len` bytes at address 0, one byte a pixel. -/
def Regs.oneRow (len : Nat) (g : Regs) : Regs :=
  { g with bufBase := 0, bufLen := BitVec.ofNat 32 len, height := 1, bpl := BitVec.ofNat 32 len, bpp := 1 }

/-- What programming, START, CHECK and SCAN of a one-row operation leave: RUN is next, on row 0. -/
def State.placeOneRow (len : Nat) (s : State) : State :=
  { startOperation s.regs.irqEn { s with regs := s.regs.oneRow len } with
    phase := .run, inputs := [], errors := { reads := [], writes := [] } }

/-- Store bytes as the row RUN takes next, the rest of its payload 0. -/
def State.storeRow (bytes : List Byte) (s : State) : State :=
  { s with
    mem := s.mem.writeBytes (s.cfg.rowBase s.r.toNat)
      (bytes.take s.cfg.bpl.toNat ++ List.replicate (s.cfg.bpl.toNat - bytes.length) 0) }

/-- Place a scanline's bytes so that the very next step runs it (log 4). -/
def State.placeScanline (bytes : List Byte) (s : State) : State :=
  (if s.atRow then s else s.placeOneRow (max 2 bytes.length)).storeRow bytes

end Sys2Proof.Machine
end

