-- ==== Sys2Proof/Machine/Step.lean ====
section
/-! DEFINITION. One step of the machine: the next thing the host or the platform does, or, when nothing is
asked, the Engine's next step (R180, R212, R297; log 1). -/

namespace Sys2Proof.Machine

def step (s : State) : Host.Outcome State Fault Refusal :=
  match s.inputs with
  | [] => engineStep s
  | e :: rest => takeEvent e (s.withInputs rest)

/-- `s` with a table word's bytes placed where the next step takes its scanline (log 4). -/
def State.withFetchWord (s : State) (nbits w : Nat) : State := s.placeScanline (wordBytes nbits w)

end Sys2Proof.Machine
end

