-- ==== Sys2Proof/Safety.lean ====
section
/-! DEFINITION. The terms the statements use: the invariant of every run, the conditions under which a
row's accesses are all answered, and the result the spec gives a whole operation (R192). -/

namespace Sys2Proof.Machine

/-- What holds at reset and after every step. -/
structure State.Inv (s : State) : Prop where
  /-- Data memory is in its canonical form. -/
  memWf : s.mem.wf = true
  /-- While BUSY the record is 0 (R214). -/
  busyRecord : s.busy = true →
    s.regs.done = false ∧ s.regs.err = false ∧ s.regs.errCode = .eNone ∧ s.regs.errRow = 0 ∧
      s.regs.errTag = 0
  /-- While BUSY the configuration registers hold the snapshot (R38). -/
  busyConfig : s.busy = true → s.regs.snapshot = s.cfg
  /-- SCAN and RUN work on a checked geometry, on a row of it (R41, R182). -/
  checkedRow : s.phase = .scan ∨ s.phase = .run →
    s.cfg.bppOk = true ∧ s.cfg.geomOk = true ∧ s.r.toNat < s.cfg.height.toNat
  /-- ERR is set only beside an error code (R27). -/
  errCode : s.regs.err = true → s.regs.errCode ≠ .eNone
  /-- ERR_TAG is 0 or an illegal tag (R36). -/
  errTag : s.regs.errTag = 0 ∨ 5 ≤ s.regs.errTag.toNat
  /-- Without a hazard the record is one that R240's table gives. -/
  record : s.hazard = false →
    (s.regs.errCode = .eTag → 5 ≤ s.regs.errTag.toNat) ∧
    (s.regs.errCode ≠ .eTag → s.regs.errTag = 0) ∧
    (s.regs.errCode ≠ .eTag → s.regs.errCode ≠ .eMem → s.regs.errRow = 0)
  /-- The operation's hazard is a hazard (R290). -/
  opHazard : s.opHazard = true → s.hazard = true
  /-- No byte is open but in the data space (R46). -/
  unseenFits : ∀ g ∈ s.unseen, g.hi ≤ Config.dataSpace
  /-- From START on every byte of the running operation's region is open to the host's reads (R76). -/
  busyUnseen : s.busy = true →
    ∀ a < Config.dataSpace, s.cfg.region.has a = true → ∃ g ∈ s.unseen, g.has a = true

/-- `n` engine reads from `a` on all get data. -/
def State.readsOk (s : State) (a n : Nat) : Prop :=
  ∀ i < n, a + i < Config.dataSpace ∧ a + i ∉ s.errors.reads

/-- `n` engine writes from `a` on are all acknowledged. -/
def State.writesOk (s : State) (a n : Nat) : Prop :=
  ∀ i < n, a + i < Config.dataSpace ∧ a + i ∉ s.errors.writes

/-- Every access RUN makes for row `eng.r` after its tag is answered: none for NONE; the row's own payload
read and written for the others; the row above read for UP, AVG and PAETH below row 0 (R185). -/
def State.rowOk (f : Instr) (s : State) : Prop :=
  f ≠ .none →
    s.readsOk (s.cfg.payloadAt s.r.toNat) s.cfg.payloadLen ∧
    s.writesOk (s.cfg.payloadAt s.r.toNat) s.cfg.payloadLen ∧
    (readsUp f = true → 0 < s.r.toNat →
      s.readsOk (s.cfg.payloadAt (s.r.toNat - 1)) s.cfg.payloadLen)

/-- The platform answers every access to the region. -/
def State.regionOk (s : State) : Prop :=
  ∀ a, s.cfg.region.has a = true → a ∉ s.errors.reads ∧ a ∉ s.errors.writes

/-- The row's payload addresses. -/
def State.inRow (s : State) (a : Nat) : Prop :=
  s.cfg.payloadAt s.r.toNat ≤ a ∧ a < s.cfg.payloadAt s.r.toNat + s.cfg.payloadLen

/-- What a filter's row changes when every access is answered and no hazard ends the operation with it:
the row counter moves on (R185), the last row completes the operation (R190), the payload of the row may
change, and the datapath registers of the filter's own circuit (R43). All else is as it was (R39, R68). -/
structure RowFrame (f : Instr) (s t : State) : Prop where
  regs : t.regs = if s.r + 1 = s.cfg.height then s.regs.complete .eNone 0 0 else s.regs
  phase : t.phase = if s.r + 1 = s.cfg.height then .idle else s.phase
  r : t.r = s.r + 1
  cfg : t.cfg = s.cfg
  hazard : t.hazard = s.hazard
  subUnit : f ≠ .sub → t.dp.sub = s.dp.sub
  lanes : f ≠ .avg → f ≠ .paeth → t.dp.lanes = s.dp.lanes
  mem : ∀ a, ¬ s.inRow a → t.mem.read a = s.mem.read a
  opHazard : t.opHazard = s.opHazard
  unseen : t.unseen = s.unseen
  draws : t.draws = s.draws
  errors : t.errors = s.errors
  resp : t.resp = s.resp
  inputs : t.inputs = s.inputs

/-- No hazard ends the operation with this row. -/
def State.rowUnharmed (s : State) : Prop := s.opHazard = false ∨ s.r + 1 ≠ s.cfg.height

/-- The register block with other configuration registers. -/
def Regs.withConfig (c : Cfg) (g : Regs) : Regs :=
  { g with bufBase := c.base, bufLen := c.len, height := c.height, bpl := c.bpl, bpp := c.bpp }

/-- Two states that differ in data memory only. -/
def sameButMem (s s' : State) : Prop := s' = { s with mem := s'.mem }

/-- Two memories that agree on a region. -/
def agreeOn (g : Region) (m m' : Memory) : Prop := ∀ a, g.has a = true → m.read a = m'.read a

/-- Payload byte i of row r in a memory. -/
def Memory.pixel (m : Memory) (c : Cfg) (r i : Nat) : Byte := m.read (c.payloadAt r + i)

/-- The tag of row r in a memory. -/
def Memory.tag (m : Memory) (c : Cfg) (r : Nat) : Byte := m.read (c.rowBase r)

/-- Every tag of the image is legal. -/
def Memory.tagsLegal (m : Memory) (c : Cfg) : Prop :=
  ∀ r < c.height.toNat, (m.tag c r).toNat < 5

/-- The filter of a legal tag. -/
def filterOf (t : Byte) : Instr :=
  match decodeTag t with
  | .ok f => f
  | .error _ => .none

/-- The payload of row r after a successful operation on memory `m` (R192): each row from the
reconstructed row above, row 0 from none. -/
def goldenRow (c : Cfg) (m : Memory) : Nat → List Byte
  | 0 => defilterRow (filterOf (m.tag c 0)) c.bpp.toNat true [] (m.payload c 0)
  | r + 1 =>
    defilterRow (filterOf (m.tag c (r + 1))) c.bpp.toNat false (goldenRow c m r) (m.payload c (r + 1))

/-- An operation about to be checked, with nothing asked of the machine meanwhile (R213, R180). -/
structure State.Started (s : State) : Prop where
  inv : s.Inv
  phase : s.phase = .check
  inputs : s.inputs = []
  noHazard : s.opHazard = false

/-- The forward filter of one row, the spec's test aid (95_test_vectors.md V-W3):
`cod[i] = (raw[i] - pred) mod 256`, the prediction taken from the raw row and the raw row above. -/
def forwardRow (f : Instr) (bpp : Nat) (first : Bool) (up raw : List Byte) : List Byte :=
  (List.range raw.length).map fun i => raw.getD i 0 - select f (operands i bpp first up raw)

end Sys2Proof.Machine
end

