-- ==== Sys2Proof/Certificates/Slice0/Obligations.lean ====
section
/-! DEFINITION. What is to be proved of the model. Each statement names the rules of spec/ it rests on;
where it rests on a choice of the model, it names the log entry. -/

open Sys2Proof Sys2Proof.Machine

/-! ### Reset -/

/-- R48: the state after reset. The datapath registers and data memory, which R48 leaves unspecified, are
not spoken of. -/
def Obligations.ResetStateValues : Prop :=
  State.reset.regs = Regs.reset ∧ State.reset.phase = .idle ∧ State.reset.r = 0 ∧
  State.reset.cfg = Cfg.reset ∧ State.reset.hazard = false ∧ State.reset.busy = false ∧
  State.reset.irq = false ∧ ∀ off, State.reset.regValue off = 0

/-- R280: the reset input, from any state; an idle engine's reset does not write data memory. The clause on
`engineStep` says that the Engine then does nothing until a START; that it answers the same state, where R181
gives IDLE no step, is the model's choice (log 2). -/
def Obligations.ResetEventRestoresResetValues : Prop :=
  ∀ (s : State) (rest : List Event), s.inputs = .reset :: rest →
    ∃ t, step s = .next t ∧ t.inputs = rest ∧ t.regs = Regs.reset ∧ t.phase = .idle ∧ t.r = 0 ∧
      t.cfg = Cfg.reset ∧ t.hazard = false ∧ t.irq = false ∧ (∀ off, t.regValue off = 0) ∧
      engineStep t = .next t ∧ (s.busy = false → t.mem = s.mem)

/-- R281: a reset while busy runs no `finish`, draws every byte of the region, leaves the others. -/
def Obligations.ResetWhileBusyDrawsRegion : Prop :=
  ∀ (s : State) (rest : List Event), s.inputs = .reset :: rest → s.busy = true → s.mem.wf = true →
    ∃ t, step s = .next t ∧ t.phase = .idle ∧ t.regs.done = false ∧ t.regs.err = false ∧
      (∀ a < Config.dataSpace, s.cfg.region.has a = true →
        t.mem.read a = Config.freeByte (s.draws + (a - s.cfg.region.lo))) ∧
      (∀ a, s.cfg.region.has a = false → t.mem.read a = s.mem.read a)

/-! ### The register block -/

/-- R211, with the map of R21: what each register reads, and that a read changes nothing of the engine.
(`resp` is the answer; `unseen` is the model's own, log 7.) -/
def Obligations.RegisterReadsShowFields : Prop :=
  ∀ (s : State) (rest : List Event) (off : Nat), s.inputs = .regRead off .word :: rest →
    off % 4 = 0 → off < 0x40 →
    ∃ t w, step s = .next t ∧ t = { s with inputs := rest, resp := .word w, unseen := t.unseen } ∧
      (off = 0x00 → w.getLsbD 1 = s.regs.irqEn ∧ w.getLsbD 0 = false ∧ w.extractLsb' 2 30 = 0) ∧
      (off = 0x04 → w.getLsbD 0 = decide (s.phase ≠ .idle) ∧ w.getLsbD 1 = s.regs.done ∧
        w.getLsbD 2 = s.regs.err ∧ w.extractLsb' 8 4 = s.regs.errCode.bits ∧
        w.extractLsb' 3 5 = 0 ∧ w.extractLsb' 12 20 = 0) ∧
      (off = 0x08 → w = s.regs.bufBase) ∧ (off = 0x0C → w = s.regs.bufLen) ∧
      (off = 0x10 → w = s.regs.height) ∧ (off = 0x14 → w = s.regs.bpl) ∧
      (off = 0x18 → w.extractLsb' 0 4 = s.regs.bpp ∧ w.extractLsb' 4 28 = 0) ∧
      (off = 0x1C → w = s.regs.errRow) ∧
      (off = 0x20 → w.extractLsb' 0 8 = s.regs.errTag ∧ w.extractLsb' 8 24 = 0) ∧
      (0x24 ≤ off → w = 0)

/-- R210: any other register access gets a bus-error response and changes no state. -/
def Obligations.UndefinedRegisterAccessGetsBusError : Prop :=
  ∀ (s : State) (rest : List Event) (off : Nat) (size : AccessSize) (w : Word),
    ¬ (size = .word ∧ off % 4 = 0 ∧ off < 0x40) →
    (s.inputs = .regRead off size :: rest ∨ s.inputs = .regWrite off size w :: rest) →
    step s = .next { s with inputs := rest, resp := .busError }

/-- R213's effects: an accepted START, all of it in one step. The clauses on `opHazard` and `unseen` are
the model's own choice (log 6, log 7, log 21); R213 says nothing of them. -/
def Obligations.AcceptedStartSnapshots : Prop :=
  ∀ (s : State) (rest : List Event) (w : Word), s.inputs = .regWrite 0x00 .word w :: rest →
    s.busy = false → w.getLsbD 0 = true →
    ∃ t, step s = .next t ∧ t.regs.irqEn = w.getLsbD 1 ∧
      t.cfg.base = s.regs.bufBase ∧ t.cfg.len = s.regs.bufLen ∧ t.cfg.height = s.regs.height ∧
      t.cfg.bpl = s.regs.bpl ∧ t.cfg.bpp = s.regs.bpp ∧
      t.regs.done = false ∧ t.regs.err = false ∧ t.regs.errCode = .eNone ∧ t.regs.errRow = 0 ∧
      t.regs.errTag = 0 ∧ t.r = 0 ∧ t.phase = .check ∧ t.busy = true ∧
      t.regs.snapshot = s.regs.snapshot ∧ t.mem = s.mem ∧ t.hazard = s.hazard ∧ t.dp = s.dp ∧
      t.draws = s.draws ∧ t.errors = s.errors ∧ t.inputs = rest ∧ t.resp = .ack ∧
      t.opHazard = false ∧ t.unseen = s.regs.snapshot.region.clip :: s.unseen

/-- R215: every other CTRL write sets IRQ_EN and does nothing else. -/
def Obligations.CtrlWriteWithoutStart : Prop :=
  ∀ (s : State) (rest : List Event) (w : Word), s.inputs = .regWrite 0x00 .word w :: rest →
    (s.busy = true ∨ w.getLsbD 0 = false) →
    step s = .next
      { s with inputs := rest, resp := .ack, regs := { s.regs with irqEn := w.getLsbD 1 } }

/-- R216: a STATUS write clears DONE and ERR where it has a 1, and has no effect on the engine while
busy. -/
def Obligations.StatusWriteClearsFlags : Prop :=
  ∀ (s : State) (rest : List Event) (w : Word), s.inputs = .regWrite 0x04 .word w :: rest →
    ∃ t, step s = .next t ∧ t = { s with inputs := rest, resp := .ack, regs := t.regs } ∧
      t.regs = { s.regs with done := t.regs.done, err := t.regs.err } ∧
      (w.getLsbD 1 = true → t.regs.done = false) ∧ (w.getLsbD 1 = false → t.regs.done = s.regs.done) ∧
      (w.getLsbD 2 = true → t.regs.err = false) ∧ (w.getLsbD 2 = false → t.regs.err = s.regs.err) ∧
      (s.Inv → s.busy = true → t.regs = s.regs)

/-- R217: a configuration write, stored while idle and ignored while busy. -/
def Obligations.ConfigurationWriteWhileIdle : Prop :=
  (∀ (s : State) (rest : List Event) (off : Nat) (w : Word), s.inputs = .regWrite off .word w :: rest →
    s.busy = true → off ∈ [0x08, 0x0C, 0x10, 0x14, 0x18] →
    step s = .next { s with inputs := rest, resp := .ack }) ∧
  ∀ (s : State) (rest : List Event) (off : Nat) (w : Word), s.inputs = .regWrite off .word w :: rest →
    s.busy = false → off ∈ [0x08, 0x0C, 0x10, 0x14, 0x18] →
    ∃ t, step s = .next t ∧ t = { s with inputs := rest, resp := .ack, regs := t.regs } ∧
      (off = 0x08 → t.regs = { s.regs with bufBase := w }) ∧
      (off = 0x0C → t.regs = { s.regs with bufLen := w }) ∧
      (off = 0x10 → t.regs = { s.regs with height := w }) ∧
      (off = 0x14 → t.regs = { s.regs with bpl := w }) ∧
      (off = 0x18 → t.regs = { s.regs with bpp := w.extractLsb' 0 4 })

/-- R38: configuration writes while busy are ignored; and an Engine step never uses the live configuration
registers: with any others in their place it does the same and leaves them alone. -/
def Obligations.ConfigurationHeldWhileBusy : Prop :=
  (∀ (s : State) (rest : List Event) (off : Nat) (w : Word),
    s.inputs = .regWrite off .word w :: rest → s.busy = true →
    off ∈ [0x08, 0x0C, 0x10, 0x14, 0x18] → step s = .next { s with inputs := rest, resp := .ack }) ∧
  (∀ (s t : State) (c : Cfg), engineStep s = .next t →
    t.regs.snapshot = s.regs.snapshot ∧
    engineStep { s with regs := s.regs.withConfig c } = .next { t with regs := t.regs.withConfig c })

/-- R218: writes to ERR_ROW, ERR_TAG and the reserved offsets are ignored without a bus error. -/
def Obligations.ReadOnlyWritesIgnored : Prop :=
  ∀ (s : State) (rest : List Event) (off : Nat) (w : Word), s.inputs = .regWrite off .word w :: rest →
    off % 4 = 0 → 0x1C ≤ off → off < 0x40 → step s = .next { s with inputs := rest, resp := .ack }

/-- R250: the level of `irq`, and what raises and drops it. -/
def Obligations.InterruptIsEnabledDone : Prop :=
  (∀ s : State, s.irq = true ↔ s.regs.irqEn = true ∧ s.regs.done = true) ∧
  (∀ (code : ErrCode) (row : Word) (tag : Byte) (s : State), s.regs.irqEn = true →
    (finish code row tag s).irq = true) ∧
  (∀ (s t : State) (rest : List Event) (w : Word), s.inputs = .regWrite 0x04 .word w :: rest →
    w.getLsbD 1 = true → step s = .next t → t.irq = false) ∧
  (∀ (s t : State) (rest : List Event) (w : Word), s.inputs = .regWrite 0x00 .word w :: rest →
    step s = .next t →
    t.irq = (w.getLsbD 1 && s.regs.done && !(!s.busy && w.getLsbD 0))) ∧
  (∀ (s t : State) (rest : List Event), s.inputs = .reset :: rest → step s = .next t → t.irq = false)

/-! ### Host data accesses -/

/-- R219: while idle a data access is an ordinary memory access, and while busy so is one outside the region;
but for reads of the regions whose operation's DONE the host has not observed (R76, R294; `unseen`, log 7). The
host reads back what it wrote, unless that DONE is yet to be observed. -/
def Obligations.HostDataAccessOutsideRunningRegion : Prop :=
  (∀ (s : State) (rest : List Event) (a : Word), s.inputs = .dataRead a :: rest →
    (s.busy = true → s.cfg.region.has a.toNat = false) →
    (∀ g ∈ s.unseen, g.has a.toNat = false) →
    step s = .next { s with inputs := rest, resp := .data (s.mem.read a.toNat) }) ∧
  (∀ (s : State) (rest : List Event) (a : Word) (b : Byte), s.inputs = .dataWrite a b :: rest →
    s.mem.wf = true → (s.busy = true → s.cfg.region.has a.toNat = false) →
    ∃ t, step s = .next t ∧
      t = { s with inputs := rest, resp := .ack, mem := t.mem, unseen := t.unseen } ∧
      t.mem.read a.toNat = b ∧ (∀ x, x ≠ a.toNat → t.mem.read x = s.mem.read x) ∧
      ∀ x, (∃ g ∈ t.unseen, g.has x = true) ↔
        (∃ g ∈ s.unseen, g.has x = true) ∧
          (x = a.toNat → s.regs.done = true ∧ s.cfg.region.has x = true)) ∧
  (∀ (s : State) (rest : List Event) (a : Word) (b : Byte),
    s.inputs = .dataWrite a b :: .dataRead a :: rest → s.mem.wf = true →
    (s.busy = true ∨ s.regs.done = true → s.cfg.region.has a.toNat = false) →
    ∃ t, Host.Core.run core 2 s = .next t ∧ t.resp = .data b)

/-- R290: a host read of a region byte while busy gets a free value; a write sets the sticky mark, and an
operation so marked ends with every region byte and the error record drawn, the record such as the engine
can record (each field on its own, log 6). -/
def Obligations.HostAccessToBusyRegion : Prop :=
  (∀ (s : State) (rest : List Event) (a : Word), s.inputs = .dataRead a :: rest → s.busy = true →
    s.cfg.region.has a.toNat = true →
    step s = .next
      { s with inputs := rest, resp := .data (Config.freeByte s.draws), draws := s.draws + 1 }) ∧
  (∀ (s : State) (rest : List Event) (a : Word) (b : Byte), s.inputs = .dataWrite a b :: rest →
    s.busy = true → s.cfg.region.has a.toNat = true →
    ∃ t, step s = .next t ∧ t.hazard = true ∧ t.opHazard = true) ∧
  (∀ (s t : State), s.hazard = true → s.inputs.head? ≠ some .reset → step s = .next t →
    t.hazard = true) ∧
  (∀ (code : ErrCode) (row : Word) (tag : Byte) (s : State), s.opHazard = true → s.mem.wf = true →
    ∃ t, endOperation code row tag s = t ∧ t.phase = .idle ∧ t.regs.done = true ∧
      (t.regs.err = true ↔ t.regs.errCode ≠ .eNone) ∧
      (∀ a < Config.dataSpace, s.cfg.region.has a = true →
        t.mem.read a = Config.freeByte (s.draws + (a - s.cfg.region.lo))) ∧
      (∀ a, s.cfg.region.has a = false → t.mem.read a = s.mem.read a) ∧
      (t.regs.errRow = 0 ∨ t.regs.errRow.toNat < s.cfg.height.toNat) ∧
      (t.regs.errTag = 0 ∨ 5 ≤ t.regs.errTag.toNat))

/-- R75, R76, R221, R294: a host read of a region byte of an operation whose end the host has not observed is a
free value, right after the Engine step that ended it too, whatever that step recorded. Once the host has read
STATUS.DONE = 1, or taken the interrupt, it reads data memory in all of that operation's region; and the bytes
outside it of an earlier operation's region, its end never observed, stay free values (log 7). -/
def Obligations.ResultsVisibleAfterDone : Prop :=
  (∀ (s : State) (rest : List Event) (a : Word), s.inputs = .dataRead a :: rest →
    (∃ g ∈ s.unseen, g.has a.toNat = true) →
    step s = .next
      { s with inputs := rest, resp := .data (Config.freeByte s.draws), draws := s.draws + 1 }) ∧
  (∀ (s t : State) (rest : List Event) (a : Word), s.Inv → s.busy = true →
    s.cfg.region.has a.toNat = true → engineStep s = .next t → t.inputs = .dataRead a :: rest →
    step t = .next
      { t with inputs := rest, resp := .data (Config.freeByte t.draws), draws := t.draws + 1 }) ∧
  ∀ (s : State) (rest : List Event) (a : Word) (e : Event),
    (e = readStatus ∨ (e = .takeIrq ∧ s.regs.irqEn = true)) →
    s.inputs = e :: .dataRead a :: rest → s.busy = false → s.regs.done = true →
    ((s.cfg.region.has a.toNat = true ∨ ∀ u ∈ s.unseen, u.has a.toNat = false) →
      ∃ t, Host.Core.run core 2 s = .next t ∧ t.resp = .data (s.mem.read a.toNat)) ∧
    (s.cfg.region.has a.toNat = false → (∃ u ∈ s.unseen, u.has a.toNat = true) →
      ∃ t, Host.Core.run core 2 s = .next t ∧ t.resp = .data (Config.freeByte s.draws))

/-! ### The sequencer -/

/-- R181: in IDLE the Engine has no step, and only an accepted START leaves IDLE. -/
def Obligations.IdleLeftOnlyByStart : Prop :=
  (∀ s : State, s.phase = .idle → engineStep s = .next s) ∧
  (∀ s t : State, s.phase = .idle → step s = .next t → t.phase ≠ .idle →
    t.phase = .check ∧ ∃ w rest, s.inputs = .regWrite 0x00 .word w :: rest ∧ w.getLsbD 0 = true)

/-- R180: how the phases change. -/
def Obligations.PhaseChanges : Prop :=
  ∀ s t : State, step s = .next t →
    (s.phase = .idle → t.phase = .idle ∨ t.phase = .check) ∧
    (s.phase = .check → (s.inputs = [] ∨ s.inputs.head? = some .engine) →
      t.phase = .scan ∨ t.phase = .idle) ∧
    (s.phase = .scan → (s.inputs = [] ∨ s.inputs.head? = some .engine) →
      t.phase = .scan ∨ t.phase = .run ∨ t.phase = .idle) ∧
    (s.phase = .run → (s.inputs = [] ∨ s.inputs.head? = some .engine) →
      t.phase = .run ∨ t.phase = .idle) ∧
    (∀ e rest, s.inputs = e :: rest → e ≠ .engine → s.phase ≠ .idle →
      (e = .reset ∧ t.phase = .idle) ∨ (e ≠ .reset ∧ t.phase = s.phase))

/-- R182, R242, R243, R245: CHECK. -/
def Obligations.CheckStepValidates : Prop :=
  ∀ s : State, s.phase = .check → s.inputs = [] → s.opHazard = false →
    (s.cfg.bpp.toNat ∉ [1, 2, 3, 4, 6, 8] → step s = .next (finish .eBpp 0 0 s)) ∧
    (s.cfg.bpp.toNat ∈ [1, 2, 3, 4, 6, 8] →
      ¬ (1 ≤ s.cfg.height.toNat ∧ 1 + s.cfg.bpp.toNat ≤ s.cfg.bpl.toNat ∧
        (s.cfg.bpl.toNat - 1) % s.cfg.bpp.toNat = 0 ∧
        s.cfg.height.toNat * s.cfg.bpl.toNat ≤ s.cfg.len.toNat ∧
        s.cfg.base.toNat + s.cfg.height.toNat * s.cfg.bpl.toNat ≤ 4294967296) →
      step s = .next (finish .eGeom 0 0 s)) ∧
    (s.cfg.bpp.toNat ∈ [1, 2, 3, 4, 6, 8] →
      (1 ≤ s.cfg.height.toNat ∧ 1 + s.cfg.bpp.toNat ≤ s.cfg.bpl.toNat ∧
        (s.cfg.bpl.toNat - 1) % s.cfg.bpp.toNat = 0 ∧
        s.cfg.height.toNat * s.cfg.bpl.toNat ≤ s.cfg.len.toNat ∧
        s.cfg.base.toNat + s.cfg.height.toNat * s.cfg.bpl.toNat ≤ 4294967296) →
      step s = .next { s with phase := .scan, r := 0 })

/-- R183: SCAN. An error response is E_MEM, an illegal tag E_TAG with nothing written, a legal tag the next
row's, or RUN from row 0 after the last. -/
def Obligations.ScanStepValidatesTag : Prop :=
  ∀ s : State, s.phase = .scan → s.inputs = [] → s.opHazard = false →
    s.cfg.rowBase s.r.toNat < Config.dataSpace →
    (s.cfg.rowBase s.r.toNat ∈ s.errors.reads →
      ∃ t, step s = .next t ∧ t.phase = .idle ∧ t.regs = s.regs.complete .eMem s.r 0) ∧
    (s.cfg.rowBase s.r.toNat ∉ s.errors.reads →
      (5 ≤ (s.mem.tag s.cfg s.r.toNat).toNat →
        step s = .next (finish .eTag s.r (s.mem.tag s.cfg s.r.toNat) s)) ∧
      ((s.mem.tag s.cfg s.r.toNat).toNat < 5 → s.r + 1 ≠ s.cfg.height →
        step s = .next { s with r := s.r + 1 }) ∧
      ((s.mem.tag s.cfg s.r.toNat).toNat < 5 → s.r + 1 = s.cfg.height →
        step s = .next { s with phase := .run, r := 0 }))

/-- The Engine's RUN step runs the decoded filter (R185): when nothing is asked of the machine, and when the
Engine's turn is the next event. -/
def Obligations.StepRunsDecodedFilter : Prop :=
  ∀ (s : State) (i : Instr), s.phase = .run → s.cfg.rowBase s.r.toNat < Config.dataSpace →
    s.cfg.rowBase s.r.toNat ∉ s.errors.reads → decodeTag (s.mem.tag s.cfg s.r.toNat) = .ok i →
    (s.inputs = [] → step s = exec i s) ∧
    (∀ rest, s.inputs = .engine :: rest → step s = exec i { s with inputs := rest })

/-- R189: a RUN step that reads an illegal tag ends the operation with E_TAG and writes nothing. -/
def Obligations.RunStepIllegalTag : Prop :=
  ∀ s : State, s.phase = .run → s.inputs = [] → s.opHazard = false →
    s.cfg.rowBase s.r.toNat < Config.dataSpace → s.cfg.rowBase s.r.toNat ∉ s.errors.reads →
    5 ≤ (s.mem.tag s.cfg s.r.toNat).toNat →
    step s = .next (finish .eTag s.r (s.mem.tag s.cfg s.r.toNat) s)

/-- R244, R188: an access of a SCAN or RUN step that gets an error response ends the operation with E_MEM
and the row; every region byte is drawn, the bytes outside are untouched. -/
def Obligations.PortErrorEndsOperation : Prop :=
  ∀ s : State, s.inputs = [] → s.opHazard = false → s.mem.wf = true →
    s.cfg.rowBase s.r.toNat + s.cfg.bpl.toNat ≤ Config.dataSpace →
    s.cfg.rowBase s.r.toNat < Config.dataSpace →
    (((s.phase = .scan ∨ s.phase = .run) ∧ s.cfg.rowBase s.r.toNat ∈ s.errors.reads) ∨
      (s.phase = .run ∧ s.cfg.rowBase s.r.toNat ∉ s.errors.reads ∧
        ∃ f, decodeTag (s.mem.tag s.cfg s.r.toNat) = .ok f ∧ ¬ s.rowOk f)) →
    ∃ t, step s = .next t ∧ t.phase = .idle ∧ t.regs = s.regs.complete .eMem s.r 0 ∧
      (∀ a < Config.dataSpace, s.cfg.region.has a = true →
        t.mem.read a = Config.freeByte (s.draws + (a - s.cfg.region.lo))) ∧
      (∀ a, s.cfg.region.has a = false → t.mem.read a = s.mem.read a)

/-- R190: `finish` in one step. -/
def Obligations.FinishRecordsCompletion : Prop :=
  ∀ (code : ErrCode) (row : Word) (tag : Byte) (s : State),
    (finish code row tag s).phase = .idle ∧ (finish code row tag s).busy = false ∧
    (finish code row tag s).regs.done = true ∧
    ((finish code row tag s).regs.err = true ↔ code ≠ .eNone) ∧
    (finish code row tag s).regs.errCode = code ∧ (finish code row tag s).regs.errRow = row ∧
    (finish code row tag s).regs.errTag = tag ∧
    (finish code row tag s).regs.irqEn = s.regs.irqEn ∧
    (finish code row tag s).regs.snapshot = s.regs.snapshot ∧
    finish code row tag s =
      { s with phase := (finish code row tag s).phase, regs := (finish code row tag s).regs }

/-! ### The five filters -/

/-- R120: NONE completes from every state, and writes no byte. -/
def Obligations.NoneRowResult : Prop :=
  ∀ s : State, s.rowUnharmed →
    ∃ t, exec .none s = .next t ∧ RowFrame .none s t ∧ t.mem = s.mem

/-- R121: SUB. -/
def Obligations.SubRowResult : Prop :=
  ∀ s : State, s.rowUnharmed → s.mem.wf = true → s.cfg.bppOk = true → s.rowOk .sub →
    ∃ t, exec .sub s = .next t ∧ RowFrame .sub s t ∧
      ∀ i < s.cfg.payloadLen,
        t.mem.pixel s.cfg s.r.toNat i = s.mem.pixel s.cfg s.r.toNat i +
          (if s.cfg.bpp.toNat ≤ i then t.mem.pixel s.cfg s.r.toNat (i - s.cfg.bpp.toNat) else 0)

/-- R122: UP. -/
def Obligations.UpRowResult : Prop :=
  ∀ s : State, s.rowUnharmed → s.mem.wf = true → s.cfg.bppOk = true → s.rowOk .up →
    ∃ t, exec .up s = .next t ∧ RowFrame .up s t ∧
      ∀ i < s.cfg.payloadLen,
        t.mem.pixel s.cfg s.r.toNat i = s.mem.pixel s.cfg s.r.toNat i +
          (if s.r.toNat = 0 then 0 else s.mem.pixel s.cfg (s.r.toNat - 1) i)

/-- R123, R145: AVG, the floor of half the exact sum of left and up. -/
def Obligations.AvgRowResult : Prop :=
  ∀ s : State, s.rowUnharmed → s.mem.wf = true → s.cfg.bppOk = true → s.rowOk .avg →
    ∃ t, exec .avg s = .next t ∧ RowFrame .avg s t ∧
      ∀ i < s.cfg.payloadLen,
        (t.mem.pixel s.cfg s.r.toNat i).toNat =
          ((s.mem.pixel s.cfg s.r.toNat i).toNat +
            ((if s.cfg.bpp.toNat ≤ i then (t.mem.pixel s.cfg s.r.toNat (i - s.cfg.bpp.toNat)).toNat
              else 0) +
             (if s.r.toNat = 0 then 0 else (s.mem.pixel s.cfg (s.r.toNat - 1) i).toNat)) / 2) % 256

/-- R124, R141: PAETH. -/
def Obligations.PaethRowResult : Prop :=
  ∀ s : State, s.rowUnharmed → s.mem.wf = true → s.cfg.bppOk = true → s.rowOk .paeth →
    ∃ t, exec .paeth s = .next t ∧ RowFrame .paeth s t ∧
      ∀ i < s.cfg.payloadLen,
        t.mem.pixel s.cfg s.r.toNat i = s.mem.pixel s.cfg s.r.toNat i +
          paeth
            (if s.cfg.bpp.toNat ≤ i then t.mem.pixel s.cfg s.r.toNat (i - s.cfg.bpp.toNat) else 0)
            (if s.r.toNat = 0 then 0 else s.mem.pixel s.cfg (s.r.toNat - 1) i)
            (if s.r.toNat ≠ 0 ∧ s.cfg.bpp.toNat ≤ i then
              s.mem.pixel s.cfg (s.r.toNat - 1) (i - s.cfg.bpp.toNat) else 0)

/-- The frame of the five filters (R39, R68): whatever state a filter answers, it is that of an answered
row with `RowFrame`, or that of E_MEM, which records E_MEM and changes no byte outside the region. And
where a filter stops (R46, log 10): only at a row that reaches past the data space. -/
def Obligations.FilterFrame : Prop :=
  (∀ (f : Instr) (s : State) (e : Fault), exec f s = .fault e →
    e = .outsideDataSpace ∧ f ≠ .none ∧
      Config.dataSpace < s.cfg.payloadAt s.r.toNat + s.cfg.payloadLen) ∧
  (∀ (f : Instr) (s : State), f ≠ .none → 0 < s.cfg.payloadLen →
    Config.dataSpace ≤ s.cfg.payloadAt s.r.toNat → exec f s = .fault .outsideDataSpace) ∧
  ∀ (f : Instr) (s t : State), s.rowUnharmed → exec f s = .next t →
    (s.rowOk f ∧ RowFrame f s t ∧ (f = .none → t.mem = s.mem ∧ t.dp = s.dp)) ∨
    (¬ s.rowOk f ∧ t.cfg = s.cfg ∧ t.r = s.r ∧ t.hazard = s.hazard ∧ t.errors = s.errors ∧
      t.resp = s.resp ∧ t.inputs = s.inputs ∧ t.phase = .idle ∧ t.regs.snapshot = s.regs.snapshot ∧
      t.regs.irqEn = s.regs.irqEn ∧ (s.opHazard = false → t.regs = s.regs.complete .eMem s.r 0) ∧
      ∀ a, s.cfg.region.has a = false → t.mem.read a = s.mem.read a)

/-- The form the row results leave out: the last row of an operation the hazard struck completes the
operation with the region drawn (R290, log 6), for every filter. -/
def Obligations.LastRowUnderHazard : Prop :=
  ∀ (f : Instr) (s : State), s.opHazard = true → s.r + 1 = s.cfg.height → s.mem.wf = true →
    s.cfg.geomOk = true → s.r.toNat < s.cfg.height.toNat → s.rowOk f →
    ∃ t, exec f s = .next t ∧ t.phase = .idle ∧ t.regs.done = true ∧
      (t.regs.err = true ↔ t.regs.errCode ≠ .eNone) ∧
      (∀ a < Config.dataSpace, s.cfg.region.has a = true →
        t.mem.read a = Config.freeByte (s.draws + (a - s.cfg.region.lo))) ∧
      (∀ a, s.cfg.region.has a = false → t.mem.read a = s.mem.read a)

/-! ### What the Engine touches -/

/-- R68: in an operation without hazard or E_MEM, an Engine step writes only payload bytes of the row RUN
works on, and only where that row's tag is 1 to 4; no tag of the region changes. -/
def Obligations.EngineWritesOnlyItsRow : Prop :=
  ∀ s t : State, s.Inv → s.opHazard = false → engineStep s = .next t → t.regs.errCode ≠ .eMem →
    (∀ a, t.mem.read a ≠ s.mem.read a →
      s.phase = .run ∧ s.inRow a ∧ 1 ≤ (s.mem.tag s.cfg s.r.toNat).toNat ∧
        (s.mem.tag s.cfg s.r.toNat).toNat ≤ 4) ∧
    (s.phase ≠ .idle → ∀ r < s.cfg.height.toNat, t.mem.tag s.cfg r = s.mem.tag s.cfg r)

/-- No Engine step changes a byte outside the region, hazard and E_MEM included (R61, R244). -/
def Obligations.EngineLeavesOutsideAlone : Prop :=
  ∀ s t : State, s.Inv → engineStep s = .next t → ∀ a, s.cfg.region.has a = false →
    t.mem.read a = s.mem.read a

/-- R61, R67, R70: what an Engine step does depends on no byte outside the region. Two states that differ
only in bytes outside it step to states that differ only in data memory, and agree on the region. -/
def Obligations.EngineReadsOnlyRegion : Prop :=
  ∀ s s' t : State, s.Inv → s'.Inv → sameButMem s s' → agreeOn s.cfg.region s.mem s'.mem →
    engineStep s = .next t →
    ∃ t', engineStep s' = .next t' ∧ sameButMem t t' ∧ agreeOn s.cfg.region t.mem t'.mem

/-- R43: the datapath registers are unobservable: with others in their place a step does the same to
everything else. -/
def Obligations.DatapathRegistersUnobservable : Prop :=
  ∀ (s t : State) (d : Datapath), step s = .next t →
    ∃ d', step { s with dp := d } = .next { t with dp := d' }

/-! ### The row recurrence and its circuits -/

/-- R110, R111, R112, R113: the recurrence, byte by byte. -/
def Obligations.RowRecurrence : Prop :=
  ∀ (f : Instr) (bpp : Nat) (first : Bool) (up cod : List Byte), 0 < bpp →
    (defilterRow f bpp first up cod).length = cod.length ∧
    ∀ i < cod.length,
      let raw := defilterRow f bpp first up cod
      let a := if bpp ≤ i then raw.getD (i - bpp) 0 else 0
      let b := if first then 0 else up.getD i 0
      let c := if first = false ∧ bpp ≤ i then up.getD (i - bpp) 0 else 0
      (raw.getD i 0).toNat = ((cod.getD i 0).toNat +
        (match f with
          | .none => 0
          | .sub => a.toNat
          | .up => b.toNat
          | .avg => (a.toNat + b.toNat) / 2
          | .paeth => (paeth a b c).toNat)) % 256

/-- R121's closed form: SUB is the prefix sum of each lane. -/
def Obligations.SubIsLanePrefixSum : Prop :=
  ∀ (bpp : Nat) (first : Bool) (up cod : List Byte), 0 < bpp → ∀ i < cod.length,
    (defilterRow .sub bpp first up cod).getD i 0 =
      ((List.range (i / bpp + 1)).map fun m => cod.getD (i - m * bpp) 0).sum

/-- R116: a byte depends only on bytes of its own lane, at or before it. -/
def Obligations.LanesIndependent : Prop :=
  ∀ (f : Instr) (bpp : Nat) (first : Bool) (up up' cod cod' : List Byte) (i : Nat), 0 < bpp →
    i < cod.length → cod'.length = cod.length →
    (∀ j ≤ i, j % bpp = i % bpp → cod.getD j 0 = cod'.getD j 0 ∧ up.getD j 0 = up'.getD j 0) →
    (defilterRow f bpp first up cod).getD i 0 = (defilterRow f bpp first up' cod').getD i 0

/-- R117: on row 0 UP is NONE, PAETH is SUB, and AVG predicts half the left byte. -/
def Obligations.FirstRowFilters : Prop :=
  ∀ (bpp : Nat) (up cod : List Byte), 0 < bpp →
    defilterRow .up bpp true up cod = cod ∧ defilterRow .none bpp true up cod = cod ∧
    defilterRow .paeth bpp true up cod = defilterRow .sub bpp true up cod ∧
    ∀ i < cod.length,
      (defilterRow .avg bpp true up cod).getD i 0 = cod.getD i 0 +
        (if bpp ≤ i then (defilterRow .avg bpp true up cod).getD (i - bpp) 0 else 0) >>> 1

/-- R142, R143: Paeth is the operand nearest to `p = a + b - c`, ties in the order a, b, c. -/
def Obligations.PaethIsNearestOperand : Prop :=
  ∀ a b c : Byte,
    let p : Int := (a.toNat : Int) + b.toNat - c.toNat
    let da := (p - a.toNat).natAbs
    let db := (p - b.toNat).natAbs
    let dc := (p - c.toNat).natAbs
    (da ≤ db → da ≤ dc → paeth a b c = a) ∧
    (¬ (da ≤ db ∧ da ≤ dc) → db ≤ dc → paeth a b c = b) ∧
    (¬ (da ≤ db ∧ da ≤ dc) → ¬ db ≤ dc → paeth a b c = c)

/-- R144: the six properties of Paeth. -/
def Obligations.PaethProperties : Prop :=
  ∀ a b c : Byte,
    (paeth a b c = a ∨ paeth a b c = b ∨ paeth a b c = c) ∧
    paeth a 0 0 = a ∧ paeth 0 b 0 = b ∧ paeth a a a = a ∧
    (c.toNat ≤ min a.toNat b.toNat → (paeth a b c).toNat = max a.toNat b.toNat) ∧
    (max a.toNat b.toNat ≤ c.toNat → (paeth a b c).toNat = min a.toNat b.toNat)

/-- R145: Avg on the exact 9-bit sum, and its 8-bit form. -/
def Obligations.AvgIsExactFloor : Prop :=
  ∀ a b : Byte, (avgPred a b).toNat = (a.toNat + b.toNat) / 2 ∧ avgPred8 a b = avgPred a b

/-- R146: the branch-free form equals the reference on every triple. -/
def Obligations.PaethBranchFreeEqualsReference : Prop :=
  ∀ a b c : Byte, paethBF a b c = paeth a b c

/-- R147: the mask realisation equals the reference on every triple. -/
def Obligations.PaethMaskEqualsReference : Prop :=
  ∀ a b c : Byte, paethMask a b c = paeth a b c

/-- R165: after t steps of the scan, element j holds the sum of its 2^t nearest elements of the lane at or
before it; the scan of the unit is T steps, T the least t with `bpp * 2^t ≥ SUB_W`; and then element j holds
the prefix sum of its lane. -/
def Obligations.ScanStepsSumLane : Prop :=
  (∀ (bpp t j : Nat) (v : List Byte), 0 < bpp → j < v.length →
    (subScanSteps t bpp v).getD j 0 =
      (((List.range (2 ^ t)).filter fun m => decide (m * bpp ≤ j)).map
        fun m => v.getD (j - m * bpp) 0).sum) ∧
  (∀ (w bpp t : Nat) (v : List Byte), 0 < bpp → w ≤ bpp * 2 ^ t → (∀ k < t, bpp * 2 ^ k < w) →
    subScan w w bpp v = subScanSteps t bpp v) ∧
  (∀ (w bpp j : Nat) (v : List Byte), 0 < bpp → v.length ≤ w → j < v.length →
    (subScan w w bpp v).getD j 0 =
      ((List.range (j / bpp + 1)).map fun m => v.getD (j - m * bpp) 0).sum)

/-- R166: the parallel-prefix unit equals the sequential reference for every legal bpp, every allowed
`SUB_W` and every row, whatever `first` and `up` are. -/
def Obligations.SubPrefixEqualsReference : Prop :=
  ∀ (w bpp : Nat) (first : Bool) (up cod : List Byte), Config.subWAllowed w → bpp ∈ Config.bppSet →
    subPrefixRow w bpp cod = defilterRow .sub bpp first up cod

/-- R126: the pixel-serial lanes equal the sequential reference for AVG and PAETH, on every row of whole
pixels, and leave the last pixel in the left registers and the pixel above it in the up-left ones. -/
def Obligations.PixelSerialEqualsReference : Prop :=
  ∀ (f : Instr) (bpp : Nat) (first : Bool) (up cod : List Byte), f = .avg ∨ f = .paeth →
    bpp ∈ Config.bppSet → cod.length % bpp = 0 → 0 < cod.length →
    (pixelSerialRun f bpp first up cod).raw = defilterRow f bpp first up cod ∧
    ∀ l < bpp, (pixelSerialRun f bpp first up cod).lanes.a.getD l 0 =
      (defilterRow f bpp first up cod).getD (cod.length - bpp + l) 0 ∧
      (pixelSerialRun f bpp first up cod).lanes.c.getD l 0 =
        if first then 0 else up.getD (cod.length - bpp + l) 0

/-- 95_test_vectors.md V-W3 property 1: the filter undoes the forward filter, for every kind and stride. -/
def Obligations.ForwardFilterRoundTrip : Prop :=
  ∀ (f : Instr) (bpp : Nat) (first : Bool) (up raw : List Byte), bpp ∈ Config.bppSet →
    defilterRow f bpp first up (forwardRow f bpp first up raw) = raw

/-! ### Whole machine -/

/-- The invariant holds after reset (R48). -/
def Obligations.InvariantAtReset : Prop := State.reset.Inv

/-- Every step keeps the invariant. Its clauses on `opHazard` and `unseen` are about the model's own fields
(log 6, log 7). -/
def Obligations.StepKeepsInvariant : Prop := ∀ s t : State, s.Inv → step s = .next t → t.Inv

/-- From a state with the invariant no step stops: the machine always has a next state. -/
def Obligations.InvariantStepAnswersNext : Prop := ∀ s : State, s.Inv → ∃ t, step s = .next t

/-- R214: the record is 0 whenever BUSY is 1, from any state of which that is true. -/
def Obligations.BusyRecordZero : Prop :=
  ∀ s t : State,
    (s.busy = true → s.regs.done = false ∧ s.regs.err = false ∧ s.regs.errCode = .eNone ∧
      s.regs.errRow = 0 ∧ s.regs.errTag = 0) →
    step s = .next t → t.busy = true →
    t.regs.done = false ∧ t.regs.err = false ∧ t.regs.errCode = .eNone ∧ t.regs.errRow = 0 ∧
      t.regs.errTag = 0

/-- R194: with nothing asked meanwhile, an operation ends after at most `1 + 2 * height` Engine steps, whatever
memory, the platform's answers and the hazard are. -/
def Obligations.OperationStepBound : Prop :=
  ∀ s : State, s.Inv → s.phase = .check → s.inputs = [] →
    ∃ k ≤ 1 + 2 * s.cfg.height.toNat, ∃ t, Host.Core.run core k s = .next t ∧ t.phase = .idle

/-- R192: the result of a successful operation, nothing asked meanwhile. -/
def Obligations.OperationResult : Prop :=
  ∀ s : State, s.Started → s.cfg.bppOk = true → s.cfg.geomOk = true → s.regionOk →
    s.mem.tagsLegal s.cfg →
    ∃ t, Host.Core.run core (1 + 2 * s.cfg.height.toNat) s = .next t ∧ t.phase = .idle ∧
      t.regs = s.regs.complete .eNone 0 0 ∧
      (∀ a, s.cfg.region.has a = false → t.mem.read a = s.mem.read a) ∧
      ∀ r < s.cfg.height.toNat,
        t.mem.tag s.cfg r = s.mem.tag s.cfg r ∧ t.mem.payload s.cfg r = goldenRow s.cfg s.mem r

/-- R241, R193: an image with an illegal tag ends with E_TAG for the lowest such row, found before any byte
is written, when nothing is asked meanwhile; the bytes open to the host's reads stay the same (log 7). -/
def Obligations.OperationReportsLowestBadTag : Prop :=
  ∀ (s : State) (r : Nat), s.Started → s.cfg.bppOk = true → s.cfg.geomOk = true → s.regionOk →
    r < s.cfg.height.toNat → 5 ≤ (s.mem.tag s.cfg r).toNat →
    (∀ q < r, (s.mem.tag s.cfg q).toNat < 5) →
    ∃ t, Host.Core.run core (2 + r) s = .next t ∧ t.phase = .idle ∧
      t.regs = s.regs.complete .eTag (BitVec.ofNat 32 r) (s.mem.tag s.cfg r) ∧ t.mem = s.mem ∧
      t.unseen = s.unseen

/-- R127: an operation whose every tag is NONE changes no byte; the bytes open to the host's reads stay the same
until the host observes DONE (log 7). -/
def Obligations.AllNoneOperationChangesNothing : Prop :=
  ∀ s : State, s.Started → s.cfg.bppOk = true → s.cfg.geomOk = true → s.regionOk →
    (∀ r < s.cfg.height.toNat, s.mem.tag s.cfg r = 0) →
    ∃ t, Host.Core.run core (1 + 2 * s.cfg.height.toNat) s = .next t ∧ t.phase = .idle ∧
      t.regs = s.regs.complete .eNone 0 0 ∧ t.mem = s.mem ∧ t.unseen = s.unseen

/-- R98, R213: the register writes of the RUN shorthand start the operation they name, in any idle state. -/
def Obligations.RunShorthandStartsOperation : Prop :=
  ∀ (s : State) (base len height bpl bpp : Word) (irqEn : Bool) (rest : List Event),
    s.busy = false → s.inputs = runShorthand base len height bpl bpp irqEn ++ rest →
    ∃ t, Host.Core.run core 6 s = .next t ∧ t.phase = .check ∧ t.r = 0 ∧ t.inputs = rest ∧
      t.cfg = { base := base, len := len, height := height, bpl := bpl, bpp := bpp.extractLsb' 0 4 } ∧
      t.regs.irqEn = irqEn ∧ t.mem = s.mem

/-! ### Decoding and memory -/

/-- R92, R94: the opcode map, and that every byte of 5 or more is illegal. -/
def Obligations.TagDecoding : Prop :=
  decodeTag 0x00 = .ok .none ∧ decodeTag 0x01 = .ok .sub ∧ decodeTag 0x02 = .ok .up ∧
  decodeTag 0x03 = .ok .avg ∧ decodeTag 0x04 = .ok .paeth ∧
  ∀ t : Byte, 5 ≤ t.toNat → decodeTag t = .error (.illegalTag t)

/-- R90, R96: decoding the encoding of a well-formed image gives it back, with the bytes after it. -/
def Obligations.ImageDecodeEncode : Prop :=
  ∀ (bpp bpl : Nat) (xs : List Scanline) (rest : List Byte), imageWf bpp bpl xs = true →
    decodeImage bpl xs.length (encodeImage xs ++ rest) = .ok (xs, rest)

/-- Equal memories are equal data: two canonical memories that read alike everywhere are the same list
(R60). -/
def Obligations.MemoryCanonicalUnique : Prop :=
  ∀ m m' : Memory, m.wf = true → m'.wf = true → (∀ a, m.read a = m'.read a) → m = m'

/-- A tag placed by `withFetchWord` is the filter the very next step runs (log 4). -/
def Obligations.FetchWordRuns : Prop :=
  ∀ (s : State) (i : Instr) (w : Nat), s.mem.wf = true → w < 256 → decodeTableWord 8 w = some i →
    step (s.withFetchWord 8 w) = exec i (s.withFetchWord 8 w) ∧
    ∃ t, step (s.withFetchWord 8 w) = .next t
end

