-- ==== Sys2Proof/Laws/State.lean ====
section
/-! SUPPORT. One lemma per field per named update of the state and of the register block, true by
unfolding, so that no later proof unfolds a record update. -/

namespace Sys2Proof.Machine

section
variable (s : State) (g : Regs) (code : ErrCode) (row w : Word) (tag : Byte) (b : Bool)
  (rest : List Event)

@[simp] theorem finish_regs : (finish code row tag s).regs = s.regs.complete code row tag := rfl
@[simp] theorem finish_phase : (finish code row tag s).phase = .idle := rfl
@[simp] theorem finish_r : (finish code row tag s).r = s.r := rfl
@[simp] theorem finish_cfg : (finish code row tag s).cfg = s.cfg := rfl
@[simp] theorem finish_hazard : (finish code row tag s).hazard = s.hazard := rfl
@[simp] theorem finish_dp : (finish code row tag s).dp = s.dp := rfl
@[simp] theorem finish_mem : (finish code row tag s).mem = s.mem := rfl
@[simp] theorem finish_opHazard : (finish code row tag s).opHazard = s.opHazard := rfl
@[simp] theorem finish_unseen : (finish code row tag s).unseen = s.unseen := rfl
@[simp] theorem finish_draws : (finish code row tag s).draws = s.draws := rfl
@[simp] theorem finish_errors : (finish code row tag s).errors = s.errors := rfl
@[simp] theorem finish_resp : (finish code row tag s).resp = s.resp := rfl
@[simp] theorem finish_inputs : (finish code row tag s).inputs = s.inputs := rfl

@[simp] theorem drawRegion_regs : (s.drawRegion).regs = s.regs := rfl
@[simp] theorem drawRegion_phase : (s.drawRegion).phase = s.phase := rfl
@[simp] theorem drawRegion_r : (s.drawRegion).r = s.r := rfl
@[simp] theorem drawRegion_cfg : (s.drawRegion).cfg = s.cfg := rfl
@[simp] theorem drawRegion_hazard : (s.drawRegion).hazard = s.hazard := rfl
@[simp] theorem drawRegion_dp : (s.drawRegion).dp = s.dp := rfl
@[simp] theorem drawRegion_mem : (s.drawRegion).mem = s.mem.writeBytes s.cfg.region.lo (freeBytes s.draws s.cfg.region.existing) := rfl
@[simp] theorem drawRegion_opHazard : (s.drawRegion).opHazard = s.opHazard := rfl
@[simp] theorem drawRegion_unseen : (s.drawRegion).unseen = s.unseen := rfl
@[simp] theorem drawRegion_draws : (s.drawRegion).draws = s.draws + s.cfg.region.existing := rfl
@[simp] theorem drawRegion_errors : (s.drawRegion).errors = s.errors := rfl
@[simp] theorem drawRegion_resp : (s.drawRegion).resp = s.resp := rfl
@[simp] theorem drawRegion_inputs : (s.drawRegion).inputs = s.inputs := rfl

@[simp] theorem drawDatapath_regs : (s.drawDatapath).regs = s.regs := rfl
@[simp] theorem drawDatapath_phase : (s.drawDatapath).phase = s.phase := rfl
@[simp] theorem drawDatapath_r : (s.drawDatapath).r = s.r := rfl
@[simp] theorem drawDatapath_cfg : (s.drawDatapath).cfg = s.cfg := rfl
@[simp] theorem drawDatapath_hazard : (s.drawDatapath).hazard = s.hazard := rfl
@[simp] theorem drawDatapath_mem : (s.drawDatapath).mem = s.mem := rfl
@[simp] theorem drawDatapath_opHazard : (s.drawDatapath).opHazard = s.opHazard := rfl
@[simp] theorem drawDatapath_unseen : (s.drawDatapath).unseen = s.unseen := rfl
@[simp] theorem drawDatapath_draws : (s.drawDatapath).draws = s.draws + Config.subW + 24 := rfl
@[simp] theorem drawDatapath_errors : (s.drawDatapath).errors = s.errors := rfl
@[simp] theorem drawDatapath_resp : (s.drawDatapath).resp = s.resp := rfl
@[simp] theorem drawDatapath_inputs : (s.drawDatapath).inputs = s.inputs := rfl

@[simp] theorem startOperation_regs : (startOperation b s).regs = { s.regs.clearRecord with irqEn := b } := rfl
@[simp] theorem startOperation_phase : (startOperation b s).phase = .check := rfl
@[simp] theorem startOperation_r : (startOperation b s).r = 0 := rfl
@[simp] theorem startOperation_cfg : (startOperation b s).cfg = s.regs.snapshot := rfl
@[simp] theorem startOperation_hazard : (startOperation b s).hazard = s.hazard := rfl
@[simp] theorem startOperation_dp : (startOperation b s).dp = s.dp := rfl
@[simp] theorem startOperation_mem : (startOperation b s).mem = s.mem := rfl
@[simp] theorem startOperation_opHazard : (startOperation b s).opHazard = false := rfl
@[simp] theorem startOperation_unseen : (startOperation b s).unseen = s.regs.snapshot.region.clip :: s.unseen := rfl
@[simp] theorem startOperation_draws : (startOperation b s).draws = s.draws := rfl
@[simp] theorem startOperation_errors : (startOperation b s).errors = s.errors := rfl
@[simp] theorem startOperation_resp : (startOperation b s).resp = s.resp := rfl
@[simp] theorem startOperation_inputs : (startOperation b s).inputs = s.inputs := rfl

@[simp] theorem markHazard_regs : (s.markHazard).regs = s.regs := rfl
@[simp] theorem markHazard_phase : (s.markHazard).phase = s.phase := rfl
@[simp] theorem markHazard_r : (s.markHazard).r = s.r := rfl
@[simp] theorem markHazard_cfg : (s.markHazard).cfg = s.cfg := rfl
@[simp] theorem markHazard_hazard : (s.markHazard).hazard = true := rfl
@[simp] theorem markHazard_dp : (s.markHazard).dp = s.dp := rfl
@[simp] theorem markHazard_mem : (s.markHazard).mem = s.mem := rfl
@[simp] theorem markHazard_opHazard : (s.markHazard).opHazard = true := rfl
@[simp] theorem markHazard_unseen : (s.markHazard).unseen = s.unseen := rfl
@[simp] theorem markHazard_draws : (s.markHazard).draws = s.draws := rfl
@[simp] theorem markHazard_errors : (s.markHazard).errors = s.errors := rfl
@[simp] theorem markHazard_resp : (s.markHazard).resp = s.resp := rfl
@[simp] theorem markHazard_inputs : (s.markHazard).inputs = s.inputs := rfl

@[simp] theorem observeDone_regs : (s.observeDone b).regs = s.regs := rfl
@[simp] theorem observeDone_phase : (s.observeDone b).phase = s.phase := rfl
@[simp] theorem observeDone_r : (s.observeDone b).r = s.r := rfl
@[simp] theorem observeDone_cfg : (s.observeDone b).cfg = s.cfg := rfl
@[simp] theorem observeDone_hazard : (s.observeDone b).hazard = s.hazard := rfl
@[simp] theorem observeDone_dp : (s.observeDone b).dp = s.dp := rfl
@[simp] theorem observeDone_mem : (s.observeDone b).mem = s.mem := rfl
@[simp] theorem observeDone_opHazard : (s.observeDone b).opHazard = s.opHazard := rfl
@[simp] theorem observeDone_unseen : (s.observeDone b).unseen = if b then uncover s.cfg.region s.unseen else s.unseen := rfl
@[simp] theorem observeDone_draws : (s.observeDone b).draws = s.draws := rfl
@[simp] theorem observeDone_errors : (s.observeDone b).errors = s.errors := rfl
@[simp] theorem observeDone_resp : (s.observeDone b).resp = s.resp := rfl
@[simp] theorem observeDone_inputs : (s.observeDone b).inputs = s.inputs := rfl

@[simp] theorem withInputs_regs : (s.withInputs rest).regs = s.regs := rfl
@[simp] theorem withInputs_phase : (s.withInputs rest).phase = s.phase := rfl
@[simp] theorem withInputs_r : (s.withInputs rest).r = s.r := rfl
@[simp] theorem withInputs_cfg : (s.withInputs rest).cfg = s.cfg := rfl
@[simp] theorem withInputs_hazard : (s.withInputs rest).hazard = s.hazard := rfl
@[simp] theorem withInputs_dp : (s.withInputs rest).dp = s.dp := rfl
@[simp] theorem withInputs_mem : (s.withInputs rest).mem = s.mem := rfl
@[simp] theorem withInputs_opHazard : (s.withInputs rest).opHazard = s.opHazard := rfl
@[simp] theorem withInputs_unseen : (s.withInputs rest).unseen = s.unseen := rfl
@[simp] theorem withInputs_draws : (s.withInputs rest).draws = s.draws := rfl
@[simp] theorem withInputs_errors : (s.withInputs rest).errors = s.errors := rfl
@[simp] theorem withInputs_resp : (s.withInputs rest).resp = s.resp := rfl
@[simp] theorem withInputs_inputs : (s.withInputs rest).inputs = rest := rfl

@[simp] theorem complete_irqEn : (g.complete code row tag).irqEn = g.irqEn := rfl
@[simp] theorem complete_done : (g.complete code row tag).done = true := rfl
@[simp] theorem complete_err : (g.complete code row tag).err = (code != .eNone) := rfl
@[simp] theorem complete_errCode : (g.complete code row tag).errCode = code := rfl
@[simp] theorem complete_bufBase : (g.complete code row tag).bufBase = g.bufBase := rfl
@[simp] theorem complete_bufLen : (g.complete code row tag).bufLen = g.bufLen := rfl
@[simp] theorem complete_height : (g.complete code row tag).height = g.height := rfl
@[simp] theorem complete_bpl : (g.complete code row tag).bpl = g.bpl := rfl
@[simp] theorem complete_bpp : (g.complete code row tag).bpp = g.bpp := rfl
@[simp] theorem complete_errRow : (g.complete code row tag).errRow = row := rfl
@[simp] theorem complete_errTag : (g.complete code row tag).errTag = tag := rfl

@[simp] theorem clearFlags_irqEn : (g.clearFlags w).irqEn = g.irqEn := rfl
@[simp] theorem clearFlags_done : (g.clearFlags w).done = (g.done && !w.getLsbD 1) := rfl
@[simp] theorem clearFlags_err : (g.clearFlags w).err = (g.err && !w.getLsbD 2) := rfl
@[simp] theorem clearFlags_errCode : (g.clearFlags w).errCode = g.errCode := rfl
@[simp] theorem clearFlags_bufBase : (g.clearFlags w).bufBase = g.bufBase := rfl
@[simp] theorem clearFlags_bufLen : (g.clearFlags w).bufLen = g.bufLen := rfl
@[simp] theorem clearFlags_height : (g.clearFlags w).height = g.height := rfl
@[simp] theorem clearFlags_bpl : (g.clearFlags w).bpl = g.bpl := rfl
@[simp] theorem clearFlags_bpp : (g.clearFlags w).bpp = g.bpp := rfl
@[simp] theorem clearFlags_errRow : (g.clearFlags w).errRow = g.errRow := rfl
@[simp] theorem clearFlags_errTag : (g.clearFlags w).errTag = g.errTag := rfl

@[simp] theorem clearRecord_irqEn : (g.clearRecord).irqEn = g.irqEn := rfl
@[simp] theorem clearRecord_done : (g.clearRecord).done = false := rfl
@[simp] theorem clearRecord_err : (g.clearRecord).err = false := rfl
@[simp] theorem clearRecord_errCode : (g.clearRecord).errCode = .eNone := rfl
@[simp] theorem clearRecord_bufBase : (g.clearRecord).bufBase = g.bufBase := rfl
@[simp] theorem clearRecord_bufLen : (g.clearRecord).bufLen = g.bufLen := rfl
@[simp] theorem clearRecord_height : (g.clearRecord).height = g.height := rfl
@[simp] theorem clearRecord_bpl : (g.clearRecord).bpl = g.bpl := rfl
@[simp] theorem clearRecord_bpp : (g.clearRecord).bpp = g.bpp := rfl
@[simp] theorem clearRecord_errRow : (g.clearRecord).errRow = 0 := rfl
@[simp] theorem clearRecord_errTag : (g.clearRecord).errTag = 0 := rfl

@[simp] theorem snapshot_base : g.snapshot.base = g.bufBase := rfl
@[simp] theorem snapshot_len : g.snapshot.len = g.bufLen := rfl
@[simp] theorem snapshot_height : g.snapshot.height = g.height := rfl
@[simp] theorem snapshot_bpl : g.snapshot.bpl = g.bpl := rfl
@[simp] theorem snapshot_bpp : g.snapshot.bpp = g.bpp := rfl

@[simp] theorem complete_snapshot : (g.complete code row tag).snapshot = g.snapshot := rfl
@[simp] theorem clearFlags_snapshot : (g.clearFlags w).snapshot = g.snapshot := rfl
@[simp] theorem clearRecord_snapshot : g.clearRecord.snapshot = g.snapshot := rfl

@[simp] theorem finish_busy : (finish code row tag s).busy = false := rfl
@[simp] theorem startOperation_busy : (startOperation b s).busy = true := rfl
@[simp] theorem drawRegion_busy : s.drawRegion.busy = s.busy := rfl
@[simp] theorem drawDatapath_busy : s.drawDatapath.busy = s.busy := rfl
@[simp] theorem markHazard_busy : s.markHazard.busy = s.busy := rfl
@[simp] theorem withInputs_busy : (s.withInputs rest).busy = s.busy := rfl
@[simp] theorem withInputs_portRead (a : Nat) : (s.withInputs rest).portRead a = s.portRead a := rfl
@[simp] theorem observeDone_busy : (s.observeDone b).busy = s.busy := rfl

/-- BUSY is every phase but IDLE (R25). -/
theorem busy_iff : s.busy = true ↔ s.phase ≠ .idle := by simp [State.busy]

end

end Sys2Proof.Machine
end

