-- ==== Sys2Proof/Laws/Memory.lean ====
section
/-! SUPPORT. The laws of data memory (R60): a read after a write, what a write leaves alone, and that
every operation keeps the canonical form. -/

namespace Sys2Proof.Machine

theorem wfFrom_cons (lo k : Nat) (v : Byte) (m : Memory) :
    Memory.wfFrom lo ((k, v) :: m) = true ↔
      lo ≤ k ∧ k < Config.dataSpace ∧ v ≠ Config.unlistedByte ∧ Memory.wfFrom (k + 1) m = true := by
  simp [Memory.wfFrom, and_assoc]

theorem wfFrom_mono {lo lo' : Nat} {m : Memory} (h : Memory.wfFrom lo m = true) (hle : lo' ≤ lo) :
    Memory.wfFrom lo' m = true := by
  cases m with
  | nil => rfl
  | cons c m =>
    rw [wfFrom_cons] at h ⊢
    exact ⟨hle.trans h.1, h.2⟩

/-- An address below every listed one reads as unlisted. -/
theorem read_below {lo a : Nat} {m : Memory} (h : Memory.wfFrom lo m = true) (ha : a < lo) :
    m.read a = Config.unlistedByte := by
  induction m generalizing lo with
  | nil => rfl
  | cons c m ih =>
    rw [wfFrom_cons] at h
    have hk : c.1 ≠ a := by omega
    simp only [Memory.read, if_neg hk]
    exact ih h.2.2.2 (by omega)

theorem read_write_other (m : Memory) {a a' : Nat} (b : Byte) (h : a' ≠ a) :
    (m.write a b).read a' = m.read a' := by
  have h' : a ≠ a' := fun e => h e.symm
  induction m with
  | nil =>
    unfold Memory.write
    split <;> simp [Memory.read, h']
  | cons c m ih =>
    unfold Memory.write
    split
    · split <;> simp [Memory.read, h']
    · split
      · next e =>
        have hc : c.1 ≠ a' := by omega
        split <;> simp [Memory.read, h', hc]
      · simp [Memory.read, ih]

theorem read_write_same_from {lo : Nat} {m : Memory} (hm : Memory.wfFrom lo m = true) (a : Nat)
    (b : Byte) : (m.write a b).read a = b := by
  induction m generalizing lo with
  | nil =>
    unfold Memory.write
    split
    · next e => simp [Memory.read, e]
    · simp [Memory.read]
  | cons c m ih =>
    rw [wfFrom_cons] at hm
    unfold Memory.write
    split
    · next hlt =>
      split
      · next e =>
        have hc : c.1 ≠ a := by omega
        simp only [Memory.read, if_neg hc, e]
        exact read_below hm.2.2.2 (by omega)
      · simp [Memory.read]
    · split
      · next hk =>
        split
        · next e =>
          rw [e]
          exact read_below hm.2.2.2 (by omega)
        · simp [Memory.read]
      · next hk =>
        have hc : c.1 ≠ a := fun e => hk e.symm
        simp only [Memory.read, if_neg hc]
        exact ih hm.2.2.2

theorem read_write_same {m : Memory} (hm : m.wf = true) (a : Nat) (b : Byte) :
    (m.write a b).read a = b := read_write_same_from hm a b

theorem wfFrom_write {lo : Nat} {m : Memory} (hm : Memory.wfFrom lo m = true) {a : Nat} (hlo : lo ≤ a)
    (ha : a < Config.dataSpace) (b : Byte) : Memory.wfFrom lo (m.write a b) = true := by
  induction m generalizing lo with
  | nil =>
    unfold Memory.write
    split
    · rfl
    · next hb => exact (wfFrom_cons ..).2 ⟨hlo, ha, hb, rfl⟩
  | cons c m ih =>
    have hc := (wfFrom_cons ..).1 hm
    unfold Memory.write
    split
    · next hlt =>
      split
      · exact hm
      · next hb =>
        exact (wfFrom_cons ..).2
          ⟨hlo, ha, hb, (wfFrom_cons ..).2 ⟨by omega, hc.2.1, hc.2.2.1, hc.2.2.2⟩⟩
    · split
      · next hk =>
        split
        · exact wfFrom_mono hc.2.2.2 (by omega)
        · next hb => exact (wfFrom_cons ..).2 ⟨hlo, ha, hb, hk ▸ hc.2.2.2⟩
      · next hnlt hne =>
        exact (wfFrom_cons ..).2 ⟨hc.1, hc.2.1, hc.2.2.1, ih hc.2.2.2 (by omega)⟩

/-- A write inside the data space keeps the canonical form. -/
theorem wf_write {m : Memory} (hm : m.wf = true) {a : Nat} (ha : a < Config.dataSpace) (b : Byte) :
    (m.write a b).wf = true := wfFrom_write hm (Nat.zero_le a) ha b

/-- A run of writes leaves every address outside it alone. -/
theorem read_writeBytes_outside (m : Memory) (a x : Nat) (bs : List Byte)
    (h : x < a ∨ a + bs.length ≤ x) : (m.writeBytes a bs).read x = m.read x := by
  induction bs generalizing m a with
  | nil => rfl
  | cons b bs ih =>
    simp only [List.length_cons] at h
    have hx : x ≠ a := by omega
    rw [Memory.writeBytes, ih _ _ (by omega), read_write_other _ _ hx]

theorem wf_writeBytes {m : Memory} (hm : m.wf = true) (a : Nat) (bs : List Byte)
    (h : a + bs.length ≤ Config.dataSpace) : (m.writeBytes a bs).wf = true := by
  induction bs generalizing m a with
  | nil => exact hm
  | cons b bs ih =>
    simp only [List.length_cons] at h
    exact ih (wf_write hm (by omega) b) (a + 1) (by omega)

/-- A run of writes leaves its bytes where it stored them. -/
theorem read_writeBytes_inside {m : Memory} (hm : m.wf = true) (a i : Nat) (bs : List Byte)
    (h : a + bs.length ≤ Config.dataSpace) (hi : i < bs.length) :
    (m.writeBytes a bs).read (a + i) = bs.getD i 0 := by
  induction bs generalizing m a i with
  | nil => simp at hi
  | cons b bs ih =>
    simp only [List.length_cons] at h hi
    have hw := wf_write hm (a := a) (by omega) b
    cases i with
    | zero =>
      rw [Memory.writeBytes, read_writeBytes_outside _ _ _ _ (by omega)]
      simpa using read_write_same hm a b
    | succ i =>
      have := ih hw (a + 1) i (by omega) (by omega)
      rw [Memory.writeBytes, show a + (i + 1) = a + 1 + i by omega, this]
      simp

@[simp] theorem payload_length (m : Memory) (c : Cfg) (r : Nat) :
    (m.payload c r).length = c.payloadLen := by simp [Memory.payload]

theorem payload_getD (m : Memory) (c : Cfg) (r i : Nat) (h : i < c.payloadLen) :
    (m.payload c r).getD i 0 = m.read (c.payloadAt r + i) := by
  simp [Memory.payload, h]

/-- Two memories that read alike on a row's payload hold the same payload. -/
theorem payload_congr {m m' : Memory} {c : Cfg} {r : Nat}
    (h : ∀ i < c.payloadLen, m.read (c.payloadAt r + i) = m'.read (c.payloadAt r + i)) :
    m.payload c r = m'.payload c r := by
  unfold Memory.payload
  exact List.map_congr_left fun i hi => h i (List.mem_range.1 hi)

end Sys2Proof.Machine
end

