-- ==== Sys2Proof/Laws/Ops.lean ====
section
/-! SUPPORT. What the shared operations do: the draws, the end of an operation (R190, R290), and the
data-memory port (R44, R188). -/

namespace Sys2Proof.Machine

/-! ### Draws -/

@[simp] theorem freeBytes_length (d n : Nat) : (freeBytes d n).length = n := by simp [freeBytes]

theorem freeBytes_getD (d n k : Nat) (h : k < n) : (freeBytes d n).getD k 0 = Config.freeByte (d + k) := by
  simp [freeBytes, h]

theorem region_fits (c : Cfg) : c.region.lo + c.region.existing ≤ Config.dataSpace := by
  have : c.base.toNat < 4294967296 := c.base.isLt
  simp only [Region.existing, Cfg.region, Config.dataSpace]
  omega

theorem region_has_iff (g : Region) (a : Nat) : g.has a = true ↔ g.lo ≤ a ∧ a < g.hi := by
  simp [Region.has]

/-- Drawing keeps the canonical form. -/
theorem drawRegion_wf {s : State} (h : s.mem.wf = true) : s.drawRegion.mem.wf = true := by
  simpa using wf_writeBytes h _ _ (by simpa using region_fits s.cfg)

/-- Each byte of the region that exists is drawn, each from a draw of its own. -/
theorem drawRegion_read_inside {s : State} (h : s.mem.wf = true) {a : Nat}
    (ha : s.cfg.region.has a = true) (hs : a < Config.dataSpace) :
    s.drawRegion.mem.read a = Config.freeByte (s.draws + (a - s.cfg.region.lo)) := by
  obtain ⟨h1, h2⟩ := (region_has_iff _ _).1 ha
  have hi : a - s.cfg.region.lo < s.cfg.region.existing := by
    simp only [Region.existing]; omega
  have := read_writeBytes_inside h s.cfg.region.lo (a - s.cfg.region.lo)
    (freeBytes s.draws s.cfg.region.existing) (by simpa using region_fits s.cfg) (by simpa using hi)
  rw [Nat.add_sub_cancel' h1] at this
  rw [drawRegion_mem, this, freeBytes_getD _ _ _ hi]

/-- No byte outside the region is drawn. -/
theorem drawRegion_read_outside (s : State) {a : Nat} (ha : s.cfg.region.has a = false) :
    s.drawRegion.mem.read a = s.mem.read a := by
  have ha' : ¬ (s.cfg.region.lo ≤ a ∧ a < s.cfg.region.hi) := fun h => by
    rw [(region_has_iff _ _).2 h] at ha
    cases ha
  rw [drawRegion_mem]
  refine read_writeBytes_outside _ _ _ _ ?_
  simp only [freeBytes_length, Region.existing]
  omega

theorem recordableTag_cases (b : Byte) : recordableTag b = 0 ∨ 5 ≤ (recordableTag b).toNat := by
  unfold recordableTag
  split
  · exact .inl rfl
  · exact .inr (by omega)

/-! ### The end of an operation -/

/-- The two ways an operation ends. -/
theorem endOperation_cases (code : ErrCode) (row : Word) (tag : Byte) (s : State) :
    (s.opHazard = false ∧ endOperation code row tag s = finish code row tag s) ∨
    (s.opHazard = true ∧ endOperation code row tag s = finishHazard s) := by
  unfold endOperation
  cases h : s.opHazard <;> simp

section
variable (code : ErrCode) (row : Word) (tag : Byte) (s : State)

@[simp] theorem finishHazard_phase : (finishHazard s).phase = .idle := rfl
@[simp] theorem finishHazard_r : (finishHazard s).r = s.r := rfl
@[simp] theorem finishHazard_cfg : (finishHazard s).cfg = s.cfg := rfl
@[simp] theorem finishHazard_hazard : (finishHazard s).hazard = s.hazard := rfl
@[simp] theorem finishHazard_opHazard : (finishHazard s).opHazard = s.opHazard := rfl
@[simp] theorem finishHazard_dp : (finishHazard s).dp = s.dp := rfl
@[simp] theorem finishHazard_mem : (finishHazard s).mem = s.drawRegion.mem := rfl
@[simp] theorem finishHazard_unseen : (finishHazard s).unseen = s.unseen := rfl
@[simp] theorem finishHazard_errors : (finishHazard s).errors = s.errors := rfl
@[simp] theorem finishHazard_resp : (finishHazard s).resp = s.resp := rfl
@[simp] theorem finishHazard_inputs : (finishHazard s).inputs = s.inputs := rfl

@[simp] theorem endOperation_phase : (endOperation code row tag s).phase = .idle := by
  unfold endOperation; split <;> rfl
@[simp] theorem endOperation_busy : (endOperation code row tag s).busy = false := by
  simp [State.busy]
@[simp] theorem endOperation_r : (endOperation code row tag s).r = s.r := by
  unfold endOperation; split <;> rfl
@[simp] theorem endOperation_cfg : (endOperation code row tag s).cfg = s.cfg := by
  unfold endOperation; split <;> rfl
@[simp] theorem endOperation_hazard : (endOperation code row tag s).hazard = s.hazard := by
  unfold endOperation; split <;> rfl
@[simp] theorem endOperation_opHazard : (endOperation code row tag s).opHazard = s.opHazard := by
  unfold endOperation; split <;> rfl
@[simp] theorem endOperation_dp : (endOperation code row tag s).dp = s.dp := by
  unfold endOperation; split <;> rfl
@[simp] theorem endOperation_unseen : (endOperation code row tag s).unseen = s.unseen := by
  unfold endOperation; split <;> rfl
@[simp] theorem endOperation_errors : (endOperation code row tag s).errors = s.errors := by
  unfold endOperation; split <;> rfl
@[simp] theorem endOperation_resp : (endOperation code row tag s).resp = s.resp := by
  unfold endOperation; split <;> rfl
@[simp] theorem endOperation_inputs : (endOperation code row tag s).inputs = s.inputs := by
  unfold endOperation; split <;> rfl

@[simp] theorem raiseMem_phase : (raiseMem s).phase = .idle := by simp [raiseMem]
@[simp] theorem raiseMem_r : (raiseMem s).r = s.r := by simp [raiseMem]
@[simp] theorem raiseMem_cfg : (raiseMem s).cfg = s.cfg := by simp [raiseMem]
@[simp] theorem raiseMem_hazard : (raiseMem s).hazard = s.hazard := by simp [raiseMem]
@[simp] theorem raiseMem_opHazard : (raiseMem s).opHazard = s.opHazard := by simp [raiseMem]
@[simp] theorem raiseMem_unseen : (raiseMem s).unseen = s.unseen := by simp [raiseMem]
@[simp] theorem raiseMem_errors : (raiseMem s).errors = s.errors := by simp [raiseMem]
@[simp] theorem raiseMem_resp : (raiseMem s).resp = s.resp := by simp [raiseMem]
@[simp] theorem raiseMem_inputs : (raiseMem s).inputs = s.inputs := by simp [raiseMem]

end

theorem endOperation_noHazard (code : ErrCode) (row : Word) (tag : Byte) {s : State}
    (h : s.opHazard = false) : endOperation code row tag s = finish code row tag s := by
  simp [endOperation, h]

theorem endOperation_wf (code : ErrCode) (row : Word) (tag : Byte) {s : State} (h : s.mem.wf = true) :
    (endOperation code row tag s).mem.wf = true := by
  unfold endOperation
  split
  · exact drawRegion_wf h
  · exact h

/-- No end of an operation changes a byte outside the region. -/
theorem endOperation_read_outside (code : ErrCode) (row : Word) (tag : Byte) (s : State) {a : Nat}
    (ha : s.cfg.region.has a = false) : (endOperation code row tag s).mem.read a = s.mem.read a := by
  unfold endOperation
  split
  · exact drawRegion_read_outside s ha
  · rfl

theorem raiseMem_wf {s : State} (h : s.mem.wf = true) : (raiseMem s).mem.wf = true :=
  endOperation_wf _ _ _ (drawRegion_wf h)

theorem raiseMem_read_outside (s : State) {a : Nat} (ha : s.cfg.region.has a = false) :
    (raiseMem s).mem.read a = s.mem.read a := by
  unfold raiseMem
  rw [endOperation_read_outside _ _ _ _ (by simpa using ha)]
  exact drawRegion_read_outside s ha

/-! ### The data-memory port -/

/-- A read that gets data gets the byte of data memory. -/
theorem portRead_ok_iff (s : State) (a : Nat) (b : Byte) :
    s.portRead a = .ok b ↔ a < Config.dataSpace ∧ a ∉ s.errors.reads ∧ b = s.mem.read a := by
  unfold State.portRead
  split
  · next h => simp [h]
  · next h =>
    split
    · next e => simp_all
    · next e => simp_all [eq_comm]

/-- A run of reads that are all answered gives the bytes of data memory. -/
theorem portReads_ok (s : State) (a n : Nat) (h : s.readsOk a n) :
    s.portReads a n = .ok ((List.range n).map fun i => s.mem.read (a + i)) := by
  induction n generalizing a with
  | zero => rfl
  | succ n ih =>
    have h0 := h 0 (by omega)
    have hb := (portRead_ok_iff s a (s.mem.read a)).2 ⟨h0.1, h0.2, rfl⟩
    have hr := ih (a + 1) fun i hi => by
      have := h (i + 1) (by omega)
      rwa [show a + (i + 1) = a + 1 + i by omega] at this
    simp only [State.portReads, hb, hr, List.range_succ_eq_map, List.map_cons, List.map_map]
    refine congrArg PortAnswer.ok (congrArg _ (List.map_congr_left fun i _ => ?_))
    simp only [Function.comp]
    rw [show a + 1 + i = a + i.succ by omega]

/-- What a run of reads that got data says. -/
theorem portReads_ok_inv {s : State} {a n : Nat} {bs : List Byte} (h : s.portReads a n = .ok bs) :
    s.readsOk a n ∧ bs = (List.range n).map fun i => s.mem.read (a + i) := by
  have key : s.readsOk a n := by
    induction n generalizing a bs with
    | zero => intro i hi; omega
    | succ n ih =>
      simp only [State.portReads] at h
      split at h
      · cases h
      · next b hb =>
        split at h
        · cases h
        · next rest hr =>
          have hb' := (portRead_ok_iff s a b).1 hb
          intro i hi
          cases i with
          | zero => exact ⟨hb'.1, hb'.2.1⟩
          | succ i =>
            have := ih hr i (by omega)
            rwa [show a + (i + 1) = a + 1 + i by omega]
  refine ⟨key, ?_⟩
  have := (portReads_ok s a n key).symm.trans h
  exact (PortAnswer.ok.inj this).symm

/-- Reads inside the data space never fail for want of an address. -/
theorem portReads_not_outside {s : State} {a n : Nat} (h : a + n ≤ Config.dataSpace) :
    s.portReads a n ≠ .failed .outside := by
  induction n generalizing a with
  | zero => simp [State.portReads]
  | succ n ih =>
    have h1 : ¬ Config.dataSpace ≤ a := by omega
    have hr : s.portRead a ≠ .failed .outside := by
      unfold State.portRead
      rw [if_neg h1]
      split <;> simp
    have ih' := ih (a := a + 1) (by omega)
    simp only [State.portReads]
    split
    · next e he => intro hc; cases hc; exact hr he
    · split
      · next e he => intro hc; cases hc; exact ih' he
      · simp

theorem portWrites_ok (s : State) (m : Memory) (a : Nat) (bs : List Byte)
    (h : s.writesOk a bs.length) : s.errors.portWrites m a bs = .ok (m.writeBytes a bs) := by
  induction bs generalizing m a with
  | nil => rfl
  | cons b bs ih =>
    have h0 := h 0 (by simp)
    have h1 : ¬ Config.dataSpace ≤ a := by have := h0.1; omega
    have h2 : a ∉ s.errors.writes := h0.2
    simp only [PortErrors.portWrites, if_neg h1, List.contains_iff_mem, if_neg h2, Memory.writeBytes]
    refine ih _ _ fun i hi => ?_
    have := h (i + 1) (by simpa using hi)
    rwa [show a + (i + 1) = a + 1 + i by omega] at this

theorem portWrites_ok_inv {s : State} {m m' : Memory} {a : Nat} {bs : List Byte}
    (h : s.errors.portWrites m a bs = .ok m') :
    s.writesOk a bs.length ∧ m' = m.writeBytes a bs := by
  have key : s.writesOk a bs.length := by
    induction bs generalizing m a with
    | nil => intro i hi; simp at hi
    | cons b bs ih =>
      simp only [PortErrors.portWrites] at h
      split at h
      · cases h
      · next h1 =>
        split at h
        · cases h
        · next h2 =>
          intro i hi
          cases i with
          | zero => exact ⟨by omega, by simpa using h2⟩
          | succ i =>
            have := ih h i (by simpa using hi)
            rwa [show a + (i + 1) = a + 1 + i by omega]
  exact ⟨key, PortAnswer.ok.inj ((portWrites_ok s m a bs key).symm.trans h) |>.symm⟩

theorem portWrites_not_outside {e : PortErrors} {m : Memory} {a : Nat} {bs : List Byte}
    (h : a + bs.length ≤ Config.dataSpace) : e.portWrites m a bs ≠ .failed .outside := by
  induction bs generalizing m a with
  | nil => simp [PortErrors.portWrites]
  | cons b bs ih =>
    simp only [List.length_cons] at h
    have h1 : ¬ Config.dataSpace ≤ a := by omega
    simp only [PortErrors.portWrites, if_neg h1]
    split
    · simp
    · exact ih (by omega)

/-- A failed access either raises E_MEM (R188) or stops (log 10). -/
theorem portFailure_cases (e : PortFail) (s : State) :
    (e = .errorResponse ∧ portFailure e s = .next (raiseMem s)) ∨
    (e = .outside ∧ portFailure e s = .fault .outsideDataSpace) := by
  cases e <;> simp [portFailure]

/-! ### The end of a RUN step -/

/-- After a row: the next one, or completion (R185). -/
theorem nextRow_cases (s : State) :
    (s.r + 1 ≠ s.cfg.height ∧ nextRow s = { s with r := s.r + 1 }) ∨
    (s.r + 1 = s.cfg.height ∧ nextRow s = endOperation .eNone 0 0 { s with r := s.r + 1 }) := by
  by_cases h : s.r + 1 = s.cfg.height
  · exact .inr ⟨h, if_pos h⟩
  · exact .inl ⟨h, if_neg h⟩

section
variable (s : State)

@[simp] theorem nextRow_r : (nextRow s).r = s.r + 1 := by
  rcases nextRow_cases s with ⟨_, h⟩ | ⟨_, h⟩ <;> simp [h]
@[simp] theorem nextRow_cfg : (nextRow s).cfg = s.cfg := by
  rcases nextRow_cases s with ⟨_, h⟩ | ⟨_, h⟩ <;> simp [h]
@[simp] theorem nextRow_hazard : (nextRow s).hazard = s.hazard := by
  rcases nextRow_cases s with ⟨_, h⟩ | ⟨_, h⟩ <;> simp [h]
@[simp] theorem nextRow_opHazard : (nextRow s).opHazard = s.opHazard := by
  rcases nextRow_cases s with ⟨_, h⟩ | ⟨_, h⟩ <;> simp [h]
@[simp] theorem nextRow_dp : (nextRow s).dp = s.dp := by
  rcases nextRow_cases s with ⟨_, h⟩ | ⟨_, h⟩ <;> simp [h]
@[simp] theorem nextRow_unseen : (nextRow s).unseen = s.unseen := by
  rcases nextRow_cases s with ⟨_, h⟩ | ⟨_, h⟩ <;> simp [h]
@[simp] theorem nextRow_errors : (nextRow s).errors = s.errors := by
  rcases nextRow_cases s with ⟨_, h⟩ | ⟨_, h⟩ <;> simp [h]
@[simp] theorem nextRow_resp : (nextRow s).resp = s.resp := by
  rcases nextRow_cases s with ⟨_, h⟩ | ⟨_, h⟩ <;> simp [h]
@[simp] theorem nextRow_inputs : (nextRow s).inputs = s.inputs := by
  rcases nextRow_cases s with ⟨_, h⟩ | ⟨_, h⟩ <;> simp [h]

end

theorem nextRow_wf {s : State} (h : s.mem.wf = true) : (nextRow s).mem.wf = true := by
  rcases nextRow_cases s with ⟨_, e⟩ | ⟨_, e⟩ <;> rw [e]
  · exact h
  · exact endOperation_wf _ _ _ h

/-- Without a hazard the end of a RUN step leaves data memory alone. -/
theorem nextRow_mem {s : State} (h : s.opHazard = false) : (nextRow s).mem = s.mem := by
  rcases nextRow_cases s with ⟨_, e⟩ | ⟨_, e⟩ <;> rw [e]
  rw [endOperation_noHazard _ _ _ (by simpa using h)]
  rfl

theorem nextRow_read_outside (s : State) {a : Nat} (ha : s.cfg.region.has a = false) :
    (nextRow s).mem.read a = s.mem.read a := by
  rcases nextRow_cases s with ⟨_, e⟩ | ⟨_, e⟩ <;> rw [e]
  rw [endOperation_read_outside _ _ _ _ (by simpa using ha)]

end Sys2Proof.Machine
end

