-- ==== Sys2Proof/Laws/Exec.lean ====
section
/-! SUPPORT. What the row recurrence, a filter's meaning, an Engine step and a step of the machine can
do, said once each. -/

namespace Sys2Proof.Machine

/-! ### The row recurrence (R110) -/

/-- The bytes already reconstructed stay in front. -/
theorem defilterFrom_prefix (f : Instr) (bpp : Nat) (first : Bool) (up raw cod : List Byte) :
    ∃ tail, defilterFrom f bpp first up raw cod = raw ++ tail ∧ tail.length = cod.length := by
  induction cod generalizing raw with
  | nil => exact ⟨[], by simp [defilterFrom]⟩
  | cons x cod ih =>
    obtain ⟨tail, h, hl⟩ := ih (raw ++ [x + select f (operands raw.length bpp first up raw)])
    exact ⟨(x + select f (operands raw.length bpp first up raw)) :: tail, by
      rw [defilterFrom, h, List.append_assoc]; rfl, by simp [hl]⟩

@[simp] theorem defilterRow_length (f : Instr) (bpp : Nat) (first : Bool) (up cod : List Byte) :
    (defilterRow f bpp first up cod).length = cod.length := by
  obtain ⟨tail, h, hl⟩ := defilterFrom_prefix f bpp first up [] cod
  simp [defilterRow, h, hl]

/-! ### A row of RUN (R185) -/

/-- The row above as RUN reads it. -/
def upBytes (f : Instr) (s : State) : List Byte :=
  if readsUp f ∧ 0 < s.r.toNat then s.mem.payload s.cfg (s.r.toNat - 1) else []

/-- The reconstructed row (R110) of row `eng.r`. -/
def rowBytes (f : Instr) (s : State) : List Byte :=
  defilterRow f s.cfg.bpp.toNat (decide (s.r.toNat = 0)) (upBytes f s) (s.mem.payload s.cfg s.r.toNat)

/-- The state with the row written and the row counter not yet moved. -/
def rowWritten (f : Instr) (s : State) : State :=
  { s with
    mem := s.mem.writeBytes (s.cfg.payloadAt s.r.toNat) (rowBytes f s)
    dp := s.dp.afterRow f s.cfg.bpp.toNat (decide (s.r.toNat = 0)) (upBytes f s)
      (s.mem.payload s.cfg s.r.toNat) }

@[simp] theorem rowBytes_length (f : Instr) (s : State) : (rowBytes f s).length = s.cfg.payloadLen := by
  simp [rowBytes]

section
variable (f : Instr) (s : State)

@[simp] theorem rowWritten_regs : (rowWritten f s).regs = s.regs := rfl
@[simp] theorem rowWritten_phase : (rowWritten f s).phase = s.phase := rfl
@[simp] theorem rowWritten_r : (rowWritten f s).r = s.r := rfl
@[simp] theorem rowWritten_cfg : (rowWritten f s).cfg = s.cfg := rfl
@[simp] theorem rowWritten_hazard : (rowWritten f s).hazard = s.hazard := rfl
@[simp] theorem rowWritten_opHazard : (rowWritten f s).opHazard = s.opHazard := rfl
@[simp] theorem rowWritten_unseen : (rowWritten f s).unseen = s.unseen := rfl
@[simp] theorem rowWritten_draws : (rowWritten f s).draws = s.draws := rfl
@[simp] theorem rowWritten_errors : (rowWritten f s).errors = s.errors := rfl
@[simp] theorem rowWritten_resp : (rowWritten f s).resp = s.resp := rfl
@[simp] theorem rowWritten_inputs : (rowWritten f s).inputs = s.inputs := rfl
@[simp] theorem rowWritten_mem :
    (rowWritten f s).mem = s.mem.writeBytes (s.cfg.payloadAt s.r.toNat) (rowBytes f s) := rfl

end

/-- What RUN reads of the row above, when its reads are answered. -/
theorem upReads_ok {f : Instr} {s : State}
    (h : readsUp f = true → 0 < s.r.toNat → s.readsOk (s.cfg.payloadAt (s.r.toNat - 1)) s.cfg.payloadLen) :
    s.portReads (s.cfg.payloadAt (s.r.toNat - 1)) (upReads f s) = .ok (upBytes f s) := by
  unfold upReads upBytes
  split
  · next hc => exact portReads_ok _ _ _ (h hc.1 hc.2)
  · rfl

/-- A row whose accesses are all answered is reconstructed and written. -/
theorem reconstructRow_ok {f : Instr} {s : State} (hf : f ≠ .none) (h : s.rowOk f) :
    reconstructRow f s = .next (nextRow (rowWritten f s)) := by
  obtain ⟨hr, hw, hu⟩ := h hf
  have h1 := portReads_ok _ _ _ hr
  have h2 := upReads_ok hu
  have h3 : s.errors.portWrites s.mem (s.cfg.payloadAt s.r.toNat) (rowBytes f s) = _ :=
    portWrites_ok s s.mem _ (rowBytes f s) (by simpa using hw)
  simp only [rowBytes, Memory.payload] at h3
  simp only [reconstructRow, h1, h2]
  rw [h3]
  rfl

/-- The three things a row of RUN can do. -/
theorem reconstructRow_cases {f : Instr} (s : State) (hf : f ≠ .none) :
    (s.rowOk f ∧ reconstructRow f s = .next (nextRow (rowWritten f s))) ∨
    reconstructRow f s = .next (raiseMem s) ∨
    reconstructRow f s = .fault .outsideDataSpace := by
  have fail : ∀ e, portFailure e s = .next (raiseMem s) ∨ portFailure e s = .fault .outsideDataSpace := by
    intro e
    rcases portFailure_cases e s with ⟨_, h⟩ | ⟨_, h⟩
    · exact .inl h
    · exact .inr h
  by_cases hok : s.rowOk f
  · exact .inl ⟨hok, reconstructRow_ok hf hok⟩
  · right
    unfold reconstructRow
    split
    · exact fail _
    · next cod hc =>
      split
      · exact fail _
      · next up hu =>
        simp only
        split
        · exact fail _
        · next m hm =>
          exfalso
          apply hok
          intro _
          obtain ⟨k1, e1⟩ := portReads_ok_inv hc
          have k3 := (portWrites_ok_inv hm).1
          refine ⟨k1, ?_, ?_⟩
          · simpa [e1] using k3
          · intro hup hr
            have := (portReads_ok_inv hu).1
            simpa [upReads, hup, hr] using this

/-- A row inside the data space never stops the machine. -/
theorem reconstructRow_next {f : Instr} {s : State}
    (h : s.cfg.payloadAt s.r.toNat + s.cfg.payloadLen ≤ Config.dataSpace) :
    ∃ t, reconstructRow f s = .next t := by
  have hle : s.cfg.payloadAt (s.r.toNat - 1) ≤ s.cfg.payloadAt s.r.toNat := by
    simp only [Cfg.payloadAt, Cfg.rowBase]
    have := Nat.mul_le_mul_right s.cfg.bpl.toNat (Nat.sub_le s.r.toNat 1)
    omega
  have h1 := portReads_not_outside (s := s) h
  have h2 : s.portReads (s.cfg.payloadAt (s.r.toNat - 1)) (upReads f s) ≠ .failed .outside := by
    apply portReads_not_outside
    unfold upReads
    split <;> omega
  have next : ∀ e, e ≠ .outside → ∃ t, portFailure e s = .next t := by
    intro e he
    cases e with
    | errorResponse => exact ⟨_, rfl⟩
    | outside => exact absurd rfl he
  unfold reconstructRow
  split
  · next e he => exact next e fun hc => h1 (hc ▸ he)
  · next cod hc =>
    have hl : cod.length = s.cfg.payloadLen := by
      rw [(portReads_ok_inv hc).2]; simp
    split
    · next e he => exact next e fun hc => h2 (hc ▸ he)
    · next up hu =>
      simp only
      split
      · next e he =>
        refine next e fun hc => ?_
        subst hc
        exact portWrites_not_outside (by simpa [hl] using h) he
      · exact ⟨_, rfl⟩

/-! ### A filter's meaning (R120 to R124) -/

theorem exec_none (s : State) : exec .none s = .next (nextRow s) := rfl

theorem exec_of_ne_none {f : Instr} (hf : f ≠ .none) (s : State) : exec f s = reconstructRow f s := by
  cases f
  · exact absurd rfl hf
  all_goals rfl

/-- Every filter completes a row whose accesses are answered. -/
theorem exec_ok {f : Instr} {s : State} (h : s.rowOk f) :
    exec f s = .next (nextRow (if f = .none then s else rowWritten f s)) := by
  by_cases hf : f = .none
  · subst hf; rfl
  · rw [exec_of_ne_none hf, reconstructRow_ok hf h, if_neg hf]

/-- What a filter's meaning can do. -/
theorem exec_cases (f : Instr) (s : State) :
    (s.rowOk f ∧ exec f s = .next (nextRow (if f = .none then s else rowWritten f s))) ∨
    (f ≠ .none ∧ exec f s = .next (raiseMem s)) ∨
    (f ≠ .none ∧ exec f s = .fault .outsideDataSpace) := by
  by_cases hf : f = .none
  · subst hf
    exact .inl ⟨fun h => absurd rfl h, rfl⟩
  · rw [exec_of_ne_none hf, if_neg hf]
    rcases reconstructRow_cases s hf with h | h | h
    · exact .inl h
    · exact .inr (.inl ⟨hf, h⟩)
    · exact .inr (.inr ⟨hf, h⟩)

/-! ### The decoder (R94) -/

/-- A tag decodes exactly when it is below 5 (R91, R93). -/
theorem decodeTag_error_iff (t : Byte) : decodeTag t = .error (.illegalTag t) ↔ 5 ≤ t.toNat := by
  constructor
  · intro h
    by_contra hlt
    have : t.toNat = 0 ∨ t.toNat = 1 ∨ t.toNat = 2 ∨ t.toNat = 3 ∨ t.toNat = 4 := by omega
    rcases this with e | e | e | e | e <;> simp [decodeTag, e] at h
  · intro h
    unfold decodeTag
    split <;> first | omega | rfl

theorem decodeTag_cases (t : Byte) :
    (t.toNat < 5 ∧ decodeTag t = .ok (filterOf t)) ∨
    (5 ≤ t.toNat ∧ decodeTag t = .error (.illegalTag t)) := by
  rcases Nat.lt_or_ge t.toNat 5 with h | h
  · left
    refine ⟨h, ?_⟩
    unfold filterOf
    have : t.toNat = 0 ∨ t.toNat = 1 ∨ t.toNat = 2 ∨ t.toNat = 3 ∨ t.toNat = 4 := by omega
    rcases this with e | e | e | e | e <;> simp [decodeTag, e]
  · exact .inr ⟨h, (decodeTag_error_iff t).2 h⟩

/-! ### The Engine's steps (R180) -/

/-- What CHECK does (R182). -/
theorem checkStep_cases (s : State) :
    (s.cfg.bppOk = false ∧ checkStep s = endOperation .eBpp 0 0 s) ∨
    (s.cfg.bppOk = true ∧ s.cfg.geomOk = false ∧ checkStep s = endOperation .eGeom 0 0 s) ∨
    (s.cfg.bppOk = true ∧ s.cfg.geomOk = true ∧ checkStep s = { s with phase := .scan, r := 0 }) := by
  unfold checkStep
  cases s.cfg.bppOk <;> cases s.cfg.geomOk <;> simp

/-- The geometry check in numbers (R242). -/
theorem geomOk_iff (c : Cfg) :
    c.geomOk = true ↔
      1 ≤ c.height.toNat ∧ 1 + c.bpp.toNat ≤ c.bpl.toNat ∧ (c.bpl.toNat - 1) % c.bpp.toNat = 0 ∧
        c.height.toNat * c.bpl.toNat ≤ c.len.toNat ∧
        c.base.toNat + c.height.toNat * c.bpl.toNat ≤ Config.dataSpace := by
  simp [Cfg.geomOk, and_assoc]

/-- What the end of a SCAN step does (R183). -/
theorem nextTag_cases (s : State) :
    (s.r + 1 ≠ s.cfg.height ∧ nextTag s = { s with r := s.r + 1 }) ∨
    (s.r + 1 = s.cfg.height ∧ nextTag s = { s with phase := .run, r := 0 }) := by
  by_cases h : s.r + 1 = s.cfg.height
  · exact .inr ⟨h, if_pos h⟩
  · exact .inl ⟨h, if_neg h⟩

/-- What SCAN does (R183). -/
theorem scanStep_cases (s : State) :
    (s.portRead (s.cfg.rowBase s.r.toNat) = .failed .errorResponse ∧ scanStep s = .next (raiseMem s)) ∨
    (s.portRead (s.cfg.rowBase s.r.toNat) = .failed .outside ∧ scanStep s = .fault .outsideDataSpace) ∨
    (∃ t, s.portRead (s.cfg.rowBase s.r.toNat) = .ok t ∧ 5 ≤ t.toNat ∧
      scanStep s = .next (endOperation .eTag s.r t s)) ∨
    (∃ t, s.portRead (s.cfg.rowBase s.r.toNat) = .ok t ∧ t.toNat < 5 ∧ scanStep s = .next (nextTag s)) := by
  unfold scanStep
  cases h : s.portRead (s.cfg.rowBase s.r.toNat) with
  | failed e => cases e <;> simp [portFailure]
  | ok t =>
    rcases decodeTag_cases t with ⟨ht, hd⟩ | ⟨ht, hd⟩
    · exact .inr (.inr (.inr ⟨t, rfl, ht, by simp [hd]⟩))
    · exact .inr (.inr (.inl ⟨t, rfl, ht, by simp [hd]⟩))

/-- What RUN does (R185, R189). -/
theorem runStep_cases (s : State) :
    (s.portRead (s.cfg.rowBase s.r.toNat) = .failed .errorResponse ∧ runStep s = .next (raiseMem s)) ∨
    (s.portRead (s.cfg.rowBase s.r.toNat) = .failed .outside ∧ runStep s = .fault .outsideDataSpace) ∨
    (∃ t, s.portRead (s.cfg.rowBase s.r.toNat) = .ok t ∧ 5 ≤ t.toNat ∧
      runStep s = .next (endOperation .eTag s.r t s)) ∨
    (∃ t, s.portRead (s.cfg.rowBase s.r.toNat) = .ok t ∧ t.toNat < 5 ∧ runStep s = exec (filterOf t) s) := by
  unfold runStep
  cases h : s.portRead (s.cfg.rowBase s.r.toNat) with
  | failed e => cases e <;> simp [portFailure]
  | ok t =>
    rcases decodeTag_cases t with ⟨ht, hd⟩ | ⟨ht, hd⟩
    · exact .inr (.inr (.inr ⟨t, rfl, ht, by simp [hd]⟩))
    · exact .inr (.inr (.inl ⟨t, rfl, ht, by simp [hd]⟩))

/-- The ways an Engine step reaches its next state. -/
theorem engineStep_cases {s t : State} (h : engineStep s = .next t) :
    (s.phase = .idle ∧ t = s) ∨
    (s.phase = .check ∧ t = checkStep s) ∨
    ((s.phase = .scan ∨ s.phase = .run) ∧ t = raiseMem s) ∨
    (∃ b, (s.phase = .scan ∨ s.phase = .run) ∧ s.portRead (s.cfg.rowBase s.r.toNat) = .ok b ∧
      5 ≤ b.toNat ∧ t = endOperation .eTag s.r b s) ∨
    (∃ b, s.phase = .scan ∧ s.portRead (s.cfg.rowBase s.r.toNat) = .ok b ∧ b.toNat < 5 ∧ t = nextTag s) ∨
    (∃ b, s.phase = .run ∧ s.portRead (s.cfg.rowBase s.r.toNat) = .ok b ∧ b.toNat < 5 ∧
      s.rowOk (filterOf b) ∧
      t = nextRow (if filterOf b = .none then s else rowWritten (filterOf b) s)) := by
  cases hp : s.phase with
  | idle =>
    simp only [engineStep, hp] at h
    exact .inl ⟨rfl, (Host.Outcome.next.inj h).symm⟩
  | check =>
    simp only [engineStep, hp] at h
    exact .inr (.inl ⟨rfl, (Host.Outcome.next.inj h).symm⟩)
  | scan =>
    simp only [engineStep, hp] at h
    rcases scanStep_cases s with ⟨_, e⟩ | ⟨_, e⟩ | ⟨b, hb, h5, e⟩ | ⟨b, hb, h5, e⟩ <;> rw [e] at h
    · exact .inr (.inr (.inl ⟨.inl rfl, (Host.Outcome.next.inj h).symm⟩))
    · cases h
    · exact .inr (.inr (.inr (.inl ⟨b, .inl rfl, hb, h5, (Host.Outcome.next.inj h).symm⟩)))
    · exact .inr (.inr (.inr (.inr (.inl ⟨b, rfl, hb, h5, (Host.Outcome.next.inj h).symm⟩))))
  | run =>
    simp only [engineStep, hp] at h
    rcases runStep_cases s with ⟨_, e⟩ | ⟨_, e⟩ | ⟨b, hb, h5, e⟩ | ⟨b, hb, h5, e⟩ <;> rw [e] at h
    · exact .inr (.inr (.inl ⟨.inr rfl, (Host.Outcome.next.inj h).symm⟩))
    · cases h
    · exact .inr (.inr (.inr (.inl ⟨b, .inr rfl, hb, h5, (Host.Outcome.next.inj h).symm⟩)))
    · rcases exec_cases (filterOf b) s with ⟨hok, e'⟩ | ⟨_, e'⟩ | ⟨_, e'⟩ <;> rw [e'] at h
      · exact .inr (.inr (.inr (.inr (.inr
          ⟨b, rfl, hb, h5, hok, (Host.Outcome.next.inj h).symm⟩))))
      · exact .inr (.inr (.inl ⟨.inr rfl, (Host.Outcome.next.inj h).symm⟩))
      · cases h

/-- A step takes the next event, or is the Engine's when nothing is asked. -/
theorem step_nil {s : State} (h : s.inputs = []) : step s = engineStep s := by simp [step, h]

theorem step_cons {s : State} {e : Event} {rest : List Event} (h : s.inputs = e :: rest) :
    step s = takeEvent e (s.withInputs rest) := by simp [step, h]

end Sys2Proof.Machine
end

