-- ==== Sys2Proof/Laws/Host.lean ====
section
/-! SUPPORT. What the host and the platform can do to each part of the machine, said once, and what an
Engine step leaves alone. -/

namespace Sys2Proof.Machine

/-! ### The Engine's frame -/

/-- What no Engine step changes: the snapshot, the hazard marks, the platform's answers, the host's side, and
of the registers all but the record (R39, R42). -/
structure EngineFrame (s t : State) : Prop where
  cfg : t.cfg = s.cfg
  hazard : t.hazard = s.hazard
  opHazard : t.opHazard = s.opHazard
  unseen : t.unseen = s.unseen
  errors : t.errors = s.errors
  resp : t.resp = s.resp
  inputs : t.inputs = s.inputs
  snapshot : t.regs.snapshot = s.regs.snapshot
  irqEn : t.regs.irqEn = s.regs.irqEn

theorem endOperation_regs (code : ErrCode) (row : Word) (tag : Byte) (s : State) :
    ∃ c r t, (endOperation code row tag s).regs = s.regs.complete c r t ∧ (t = tag ∨ t = 0 ∨ 5 ≤ t.toNat) := by
  rcases endOperation_cases code row tag s with ⟨_, e⟩ | ⟨_, e⟩ <;> rw [e]
  · exact ⟨_, _, _, rfl, .inl rfl⟩
  · exact ⟨_, _, _, rfl, .inr (recordableTag_cases _)⟩

theorem endOperation_frame (code : ErrCode) (row : Word) (tag : Byte) (s : State) :
    EngineFrame s (endOperation code row tag s) := by
  obtain ⟨c, r, t, e, _⟩ := endOperation_regs code row tag s
  exact ⟨by simp, by simp, by simp, by simp, by simp, by simp, by simp, by simp [e],
    by simp [e]⟩

theorem EngineFrame.refl (s : State) : EngineFrame s s := ⟨rfl, rfl, rfl, rfl, rfl, rfl, rfl, rfl, rfl⟩

theorem EngineFrame.trans {s t u : State} (h : EngineFrame s t) (k : EngineFrame t u) : EngineFrame s u :=
  ⟨k.cfg.trans h.cfg, k.hazard.trans h.hazard, k.opHazard.trans h.opHazard, k.unseen.trans h.unseen,
    k.errors.trans h.errors, k.resp.trans h.resp, k.inputs.trans h.inputs, k.snapshot.trans h.snapshot,
    k.irqEn.trans h.irqEn⟩

theorem raiseMem_frame (s : State) : EngineFrame s (raiseMem s) :=
  EngineFrame.trans (t := s.drawRegion.drawDatapath) ⟨rfl, rfl, rfl, rfl, rfl, rfl, rfl, rfl, rfl⟩
    (endOperation_frame _ _ _ _)

theorem nextRow_frame (s : State) : EngineFrame s (nextRow s) := by
  rcases nextRow_cases s with ⟨_, e⟩ | ⟨_, e⟩ <;> rw [e]
  · exact ⟨rfl, rfl, rfl, rfl, rfl, rfl, rfl, rfl, rfl⟩
  · exact EngineFrame.trans (t := { s with r := s.r + 1 })
      ⟨rfl, rfl, rfl, rfl, rfl, rfl, rfl, rfl, rfl⟩ (endOperation_frame _ _ _ _)

theorem checkStep_frame (s : State) : EngineFrame s (checkStep s) := by
  rcases checkStep_cases s with ⟨_, e⟩ | ⟨_, _, e⟩ | ⟨_, _, e⟩ <;> rw [e]
  · exact endOperation_frame _ _ _ _
  · exact endOperation_frame _ _ _ _
  · exact ⟨rfl, rfl, rfl, rfl, rfl, rfl, rfl, rfl, rfl⟩

theorem nextTag_frame (s : State) : EngineFrame s (nextTag s) := by
  rcases nextTag_cases s with ⟨_, e⟩ | ⟨_, e⟩ <;> rw [e] <;>
    exact ⟨rfl, rfl, rfl, rfl, rfl, rfl, rfl, rfl, rfl⟩

theorem rowWritten_frame (f : Instr) (s : State) : EngineFrame s (rowWritten f s) :=
  ⟨rfl, rfl, rfl, rfl, rfl, rfl, rfl, rfl, rfl⟩

/-- An Engine step keeps the frame. -/
theorem engineStep_frame {s t : State} (h : engineStep s = .next t) : EngineFrame s t := by
  rcases engineStep_cases h with
    ⟨_, rfl⟩ | ⟨_, rfl⟩ | ⟨_, rfl⟩ | ⟨b, _, _, _, rfl⟩ | ⟨b, _, _, _, rfl⟩ | ⟨b, _, _, _, _, rfl⟩
  · exact EngineFrame.refl _
  · exact checkStep_frame s
  · exact raiseMem_frame s
  · exact endOperation_frame _ _ _ _
  · exact nextTag_frame s
  · split
    · exact nextRow_frame s
    · exact (rowWritten_frame _ s).trans (nextRow_frame _)

/-! ### The host's and the platform's events -/

/-- Which register accesses are defined (R210). -/
theorem regAccessOk_iff (off : Nat) (size : AccessSize) :
    regAccessOk off size = true ↔ size = .word ∧ off % 4 = 0 ∧ off < 64 := by
  unfold regAccessOk
  rw [Bool.and_eq_true, Bool.and_eq_true, decide_eq_true_iff]
  simp [and_assoc, Config.regBlockBytes]

/-- The ways a register write changes the machine: an accepted START, or the registers only, and those only
as `R215`, `R216` and `R217` say. -/
theorem hostRegWrite_cases (off : Nat) (size : AccessSize) (w : Word) (s : State) :
    (regAccessOk off size = false ∧ hostRegWrite off size w s = { s with resp := .busError }) ∨
    (off = 0x00 ∧ s.busy = false ∧ w.getLsbD 0 = true ∧
      hostRegWrite off size w s = { startOperation (w.getLsbD 1) s with resp := .ack }) ∨
    (off = 0x00 ∧ (s.busy = true ∨ w.getLsbD 0 = false) ∧
      hostRegWrite off size w s =
        { s with regs := { s.regs with irqEn := w.getLsbD 1 }, resp := .ack }) ∨
    (off = 0x04 ∧ hostRegWrite off size w s = { s with regs := s.regs.clearFlags w, resp := .ack }) ∨
    (off ≠ 0x00 ∧ off ≠ 0x04 ∧ s.busy = true ∧ hostRegWrite off size w s = { s with resp := .ack }) ∨
    (off ≠ 0x00 ∧ off ≠ 0x04 ∧ s.busy = false ∧
      hostRegWrite off size w s = { s with regs := s.regs.configure off w, resp := .ack }) := by
  cases hok : regAccessOk off size with
  | false => exact .inl ⟨rfl, by simp [hostRegWrite, hok]⟩
  | true =>
    right
    simp only [hostRegWrite, hok, if_true]
    unfold writeReg
    split
    · unfold writeCtrl
      cases hb : s.busy <;> cases hw : w.getLsbD 0 <;> simp
    · exact .inr (.inr (.inl ⟨rfl, rfl⟩))
    · next h0 h4 =>
      cases hb : s.busy
      · exact .inr (.inr (.inr (.inr ⟨h0, h4, rfl, by simp⟩)))
      · exact .inr (.inr (.inr (.inl ⟨h0, h4, rfl, by simp⟩)))

/-- A configuration write changes no field but the five of the configuration (R217). -/
theorem configure_record (off : Nat) (w : Word) (g : Regs) :
    (g.configure off w).irqEn = g.irqEn ∧ (g.configure off w).done = g.done ∧
    (g.configure off w).err = g.err ∧ (g.configure off w).errCode = g.errCode ∧
    (g.configure off w).errRow = g.errRow ∧ (g.configure off w).errTag = g.errTag := by
  unfold Regs.configure
  split <;> exact ⟨rfl, rfl, rfl, rfl, rfl, rfl⟩

/-- What is left of a region without another. -/
theorem minus_has_iff (g h : Region) (a : Nat) :
    (∃ p ∈ g.minus h, p.has a = true) ↔ g.has a = true ∧ h.has a = false := by
  simp only [Region.minus, List.mem_filter, List.mem_cons, List.not_mem_nil, or_false, decide_eq_true_eq,
    Region.has, Bool.and_eq_true, Bool.and_eq_false_iff, decide_eq_false_iff_not]
  constructor
  · rintro ⟨p, ⟨rfl | rfl, _⟩, h1, h2⟩ <;> dsimp only at h1 h2 <;> omega
  · rintro ⟨⟨h1, h2⟩, hn⟩
    rcases Nat.lt_or_ge a h.lo with hl | hl
    · exact ⟨{ lo := g.lo, hi := min g.hi h.lo }, ⟨.inl rfl, by dsimp only; omega⟩, by dsimp only; omega⟩
    · exact ⟨{ lo := max g.lo h.hi, hi := g.hi }, ⟨.inr rfl, by dsimp only; omega⟩, by dsimp only; omega⟩

/-- What is left of some regions without another. -/
theorem uncover_has_iff (h : Region) (gs : List Region) (a : Nat) :
    (∃ p ∈ uncover h gs, p.has a = true) ↔ (∃ g ∈ gs, g.has a = true) ∧ h.has a = false := by
  simp only [uncover, List.mem_flatMap]
  constructor
  · rintro ⟨p, ⟨g, hg, hp⟩, ha⟩
    have := (minus_has_iff g h a).1 ⟨p, hp, ha⟩
    exact ⟨⟨g, hg, this.1⟩, this.2⟩
  · rintro ⟨⟨g, hg, ha⟩, hh⟩
    obtain ⟨p, hp, hpa⟩ := (minus_has_iff g h a).2 ⟨ha, hh⟩
    exact ⟨p, ⟨g, hg, hp⟩, hpa⟩

/-- The part of a region that exists holds its addresses below 2^32. -/
theorem clip_has_iff (g : Region) (a : Nat) :
    g.clip.has a = true ↔ g.has a = true ∧ a < Config.dataSpace := by
  rw [Region.has, Region.has, Bool.and_eq_true, Bool.and_eq_true, decide_eq_true_iff, decide_eq_true_iff,
    decide_eq_true_iff, decide_eq_true_iff]
  simp only [Region.clip, Region.existing]
  omega

/-- It reaches no further, for a region that starts below 2^32. -/
theorem clip_hi_le {g : Region} (h : g.lo ≤ Config.dataSpace) : g.clip.hi ≤ Config.dataSpace := by
  simp only [Region.clip, Region.existing]
  omega

/-- What is left reaches no further. -/
theorem uncover_hi_le {h : Region} {gs : List Region} {n : Nat} (hn : ∀ g ∈ gs, g.hi ≤ n) :
    ∀ p ∈ uncover h gs, p.hi ≤ n := by
  intro p hp
  obtain ⟨g, hg, hp⟩ := List.mem_flatMap.1 hp
  have := hn g hg
  simp only [Region.minus, List.mem_filter, List.mem_cons, List.not_mem_nil, or_false] at hp
  rcases hp with ⟨rfl | rfl, _⟩ <;> dsimp only <;> omega

/-- Which bytes a host read finds open (R290, R294). -/
theorem readIsOpen_iff (s : State) (a : Nat) :
    s.readIsOpen a = true ↔
      (s.busy = true ∧ s.cfg.region.has a = true) ∨ ∃ g ∈ s.unseen, g.has a = true := by
  simp [State.readIsOpen, State.busyRegion]

/-- Which bytes stay open to the host's reads after it has observed DONE (R75, R76, R221). -/
theorem observeDone_readIsOpen_iff {s : State} (hb : s.busy = false) (a : Nat) :
    (s.observeDone true).readIsOpen a = true ↔
      (∃ g ∈ s.unseen, g.has a = true) ∧ s.cfg.region.has a = false := by
  rw [readIsOpen_iff]
  simp [hb, uncover_has_iff]

/-- The two answers of a host data read (R219, R290). -/
theorem hostDataRead_cases (a : Word) (s : State) :
    (s.readIsOpen a.toNat = true ∧
      hostDataRead a s =
        { s with resp := .data (Config.freeByte s.draws), draws := s.draws + 1 }) ∨
    (s.readIsOpen a.toNat = false ∧ hostDataRead a s = { s with resp := .data (s.mem.read a.toNat) }) := by
  unfold hostDataRead
  cases s.readIsOpen a.toNat <;> simp

/-- The two effects of a host data write (R219, R290), and which bytes it leaves open (R76). -/
theorem hostDataWrite_cases (a : Word) (b : Byte) (s : State) :
    (s.busyRegion a.toNat = true ∧
      hostDataWrite a b s =
        { s with mem := s.mem.write a.toNat b, hazard := true, opHazard := true, resp := .ack }) ∨
    (s.busyRegion a.toNat = false ∧
      hostDataWrite a b s =
        { s with
          mem := s.mem.write a.toNat b, resp := .ack
          unseen :=
            if s.regs.done && s.cfg.region.has a.toNat then s.unseen
            else uncover { lo := a.toNat, hi := a.toNat + 1 } s.unseen }) := by
  unfold hostDataWrite State.endObservable State.busyRegion
  cases s.busy <;> cases s.cfg.region.has a.toNat <;> simp

/-- Which bytes are left in `unseen` by a host data write (R76, R219). -/
theorem hostDataWrite_unseen_iff (a : Word) (b : Byte) (s : State) (x : Nat) :
    (∃ g ∈ (hostDataWrite a b s).unseen, g.has x = true) ↔
      (∃ g ∈ s.unseen, g.has x = true) ∧ (x = a.toNat → s.endObservable x = true) := by
  have one : ({ lo := a.toNat, hi := a.toNat + 1 } : Region).has x = false ↔ x ≠ a.toNat := by
    simp [Region.has]
    omega
  unfold hostDataWrite
  cases h : s.endObservable a.toNat
  · simp only [Bool.false_eq_true, if_false, uncover_has_iff, one]
    refine and_congr_right fun _ => ⟨fun k e => absurd e k, ?_⟩
    rintro k rfl
    exact absurd (k rfl) (by simp [h])
  · simp only [if_true]
    exact ⟨fun k => ⟨k, fun e => e ▸ h⟩, And.left⟩

/-- A host data write keeps the canonical form of data memory. -/
theorem hostDataWrite_wf {s : State} (h : s.mem.wf = true) (a : Word) (b : Byte) :
    (hostDataWrite a b s).mem.wf = true := by
  have ha : a.toNat < Config.dataSpace := a.isLt
  unfold hostDataWrite
  cases s.busyRegion a.toNat
  · exact wf_write h ha b
  · exact wf_write h ha b

/-- So does a reset. -/
theorem resetEngine_wf {s : State} (h : s.mem.wf = true) : (resetEngine s).mem.wf = true := by
  unfold resetEngine
  cases s.busy
  · exact h
  · exact drawRegion_wf h

/-- And so does placing a scanline, when the row lies in the data space. -/
theorem storeRow_wf {s : State} (h : s.mem.wf = true) (bytes : List Byte)
    (hr : s.cfg.rowBase s.r.toNat + s.cfg.bpl.toNat ≤ Config.dataSpace) :
    (s.storeRow bytes).mem.wf = true := by
  refine wf_writeBytes h _ _ ?_
  simp only [List.length_append, List.length_take, List.length_replicate]
  omega

/-! ### Runs -/

theorem run_zero (s : State) : Host.Core.run core 0 s = .next s := rfl

/-- A run goes on from a step's next state. -/
theorem run_succ {s t : State} (h : step s = .next t) (k : Nat) :
    Host.Core.run core (k + 1) s = Host.Core.run core k t := by
  have h' : core.step s = .next t := h
  simp only [Host.Core.run, h']

/-- Runs compose. -/
theorem run_add {s t : State} {j : Nat} (h : Host.Core.run core j s = .next t) (k : Nat) :
    Host.Core.run core (j + k) s = Host.Core.run core k t := by
  induction j generalizing s with
  | zero =>
    have : s = t := Host.Outcome.next.inj h
    rw [this, Nat.zero_add]
  | succ j ih =>
    rw [Nat.succ_add]
    have hs : ∃ u, step s = .next u := by
      cases hc : step s with
      | next u => exact ⟨u, rfl⟩
      | fault r =>
        have h' : core.step s = .fault r := hc
        simp only [Host.Core.run, h'] at h
        cases h
      | refused r =>
        have h' : core.step s = .refused r := hc
        simp only [Host.Core.run, h'] at h
        cases h
    obtain ⟨u, hu⟩ := hs
    rw [run_succ hu] at h ⊢
    exact ih h

end Sys2Proof.Machine
end

