-- ==== Sys2Proof/Laws/PerInstr.lean ====
section
/-! SUPPORT. Said of each filter as syntax: its tag, and that the decoder reads it back (R92, R94). -/

namespace Sys2Proof.Laws.TagRoundTrip

/-- The filter's tag is one of the five legal ones (R91), the decoder reads the filter back from it (R94),
also as a table word, and no other tag decodes to it. -/
def Statement (i : Instr) : Prop :=
  (encodeTag i).toNat < 5 ∧ decodeTag (encodeTag i) = .ok i ∧
  decodeTableWord 8 (encodeTag i).toNat = some i ∧ ∀ t : Byte, decodeTag t = .ok i → t = encodeTag i

/-- The tag of a decoded filter is its own. -/
theorem tag_of_decoded {t : Byte} {i : Instr} (h : decodeTag t = .ok i) : t = encodeTag i := by
  apply BitVec.eq_of_toNat_eq
  unfold decodeTag at h
  split at h
  all_goals first | (next e => cases h; simpa [encodeTag] using e) | cases h

theorem none : Statement .none := ⟨by decide, by decide, by decide, fun _ => tag_of_decoded⟩

theorem sub : Statement .sub := ⟨by decide, by decide, by decide, fun _ => tag_of_decoded⟩

theorem up : Statement .up := ⟨by decide, by decide, by decide, fun _ => tag_of_decoded⟩

theorem avg : Statement .avg := ⟨by decide, by decide, by decide, fun _ => tag_of_decoded⟩

theorem paeth : Statement .paeth := ⟨by decide, by decide, by decide, fun _ => tag_of_decoded⟩

end Sys2Proof.Laws.TagRoundTrip
end

