-- ==== Sys2Proof/Tests/Slice0.lean ====
section
/-! SUPPORT. The model's own tests: words and vectors of spec/95_test_vectors.md, the refusals of
WellFormed, and for each obligation's hypotheses (and each of its clauses) a state that meets them. -/

namespace Sys2Proof.Tests

open Sys2Proof Sys2Proof.Machine

/-! ### Helpers -/

/-- A geometry at address 16. -/
def geo (bpp height bpl : Nat) : Cfg :=
  { base := 16, len := BitVec.ofNat 32 (height * bpl), height := BitVec.ofNat 32 height,
    bpl := BitVec.ofNat 32 bpl, bpp := BitVec.ofNat 4 bpp }

/-- A state of a geometry: data memory holds `bytes` from address 16 on, `inputs` is asked next, and of a running
operation the region is open. -/
def at' (p : Phase) (c : Cfg) (bytes : List Byte) (inputs : List Event) : State :=
  { State.reset with
    regs := Regs.reset.withConfig c, phase := p, cfg := c, mem := Memory.writeBytes [] 16 bytes
    unseen := if p = .idle then [] else [c.region.clip], inputs := inputs }

/-- The machine right after reset, asked one thing. -/
def asked (e : Event) : State := { State.reset with inputs := [e] }

/-- The state after `n` steps, if none of them stops. -/
def after : Nat → State → Option State
  | 0, s => some s
  | n + 1, s =>
    match step s with
    | .next t => after n t
    | .fault _ => Option.none
    | .refused _ => Option.none

/-- Row `r`'s payload after the step on it. -/
def rowAfter (r : Nat) (s : State) : Option (List Byte) := (after 1 s).map fun t => t.mem.payload t.cfg r

/-- RUN about to work on row 1 of two: `bytes` are both rows, tag and payload. -/
def onRow1 (bpp bpl : Nat) (bytes : List Byte) : State :=
  { at' .run (geo bpp 2 bpl) bytes [] with r := 1 }

/-- RUN about to work on the one row of an image. -/
def onRow0 (bpp bpl : Nat) (bytes : List Byte) : State := at' .run (geo bpp 1 bpl) bytes []

/-- An image of two rows of two bytes: PAETH, then SUB. -/
def twoRows (p : Phase) (inputs : List Event) : State := at' p (geo 1 2 2) [4, 7, 1, 9] inputs

/-! ### Decoding: words written out from R92 (V-D) -/

theorem test_decode_none : decodeTableWord 8 0b00000000 = some .none := by decide
theorem test_decode_sub : decodeTableWord 8 0b00000001 = some .sub := by decide
theorem test_decode_up : decodeTableWord 8 0b00000010 = some .up := by decide
theorem test_decode_avg : decodeTableWord 8 0b00000011 = some .avg := by decide
theorem test_decode_paeth : decodeTableWord 8 0b00000100 = some .paeth := by decide
theorem test_decode_illegal :
    decodeTag 0b00000101 = .error (.illegalTag 0x05) ∧ decodeTag 0b00000111 = .error (.illegalTag 0x07) ∧
    decodeTag 0b10000000 = .error (.illegalTag 0x80) ∧ decodeTag 0b11111111 = .error (.illegalTag 0xFF) ∧
    decodeTableWord 8 0b10000001 = Option.none := by decide

/-- P1's buffer (R90, R97): the dump decodes to the listing, and the listing encodes to the dump. -/
theorem test_decode_image_p1 :
    decodeImage 7 2 [4, 0x0A, 0x14, 0x1E, 0, 0, 0, 1, 5, 5, 5, 5, 5, 5] =
      .ok ([⟨.paeth, [0x0A, 0x14, 0x1E, 0, 0, 0]⟩, ⟨.sub, [5, 5, 5, 5, 5, 5]⟩], []) ∧
    encodeImage [⟨.paeth, [0x0A, 0x14, 0x1E, 0, 0, 0]⟩, ⟨.sub, [5, 5, 5, 5, 5, 5]⟩] =
      [4, 0x0A, 0x14, 0x1E, 0, 0, 0, 1, 5, 5, 5, 5, 5, 5] := by decide

theorem test_decode_truncated :
    decodeScanline 3 [1, 2] = .error .truncated ∧ decodeScanline 3 [] = .error .truncated := by decide

/-! ### WellFormed: an ill-formed term for each check (R3, R10, R96) -/

theorem test_wf_ok : Scanline.wf 3 7 ⟨.sub, [5, 5, 5, 5, 5, 5]⟩ = true := by decide
theorem test_wf_bpp : Scanline.wf 5 6 ⟨.sub, [1, 2, 3, 4, 5]⟩ = false := by decide
theorem test_wf_length : Scanline.wf 1 4 ⟨.up, [1, 2]⟩ = false := by decide
theorem test_wf_empty_row : Scanline.wf 1 1 ⟨.up, []⟩ = false := by decide
theorem test_wf_partial_pixel : Scanline.wf 2 4 ⟨.avg, [1, 2, 3]⟩ = false := by decide
theorem test_wf_empty_image : imageWf 1 2 [] = false := by decide
theorem test_wf_uneven_image : imageWf 1 2 [⟨.none, [1]⟩, ⟨.none, [1, 2]⟩] = false := by decide
theorem test_wf_image_bpp : imageWf 7 8 [⟨.none, [1, 2, 3, 4, 5, 6, 7]⟩] = false := by decide

/-! ### The filters, one step each (V-R) -/

theorem test_none_row0 : rowAfter 0 (onRow0 1 4 [0, 1, 2, 3]) = some [1, 2, 3] := by decide
theorem test_none_row1 :
    rowAfter 1 (onRow1 2 5 [0, 0xAA, 0xBB, 0xCC, 0xDD, 0, 0x10, 0x20, 0x30, 0x40]) =
      some [0x10, 0x20, 0x30, 0x40] := by decide
theorem test_sub_wrap :
    rowAfter 0 (onRow0 1 6 [1, 1, 2, 3, 0xFA, 0x0A]) = some [1, 3, 6, 0, 0x0A] := by decide
theorem test_sub_bpp2 :
    rowAfter 0 (onRow0 2 7 [1, 0x80, 1, 0x80, 1, 0x80, 1]) = some [0x80, 1, 0, 2, 0x80, 3] := by decide
theorem test_up_row0 : rowAfter 0 (onRow0 1 3 [2, 0x64, 5]) = some [0x64, 5] := by decide
theorem test_up_bpp4 :
    rowAfter 1 (onRow1 4 5 [0, 0xFF, 0, 0x80, 0x7F, 2, 1, 0xFF, 0x80, 0x81]) =
      some [0, 0xFF, 0, 0] := by decide
theorem test_avg_sum_510 :
    rowAfter 1 (onRow1 1 3 [0, 0xFF, 0xFF, 3, 0x80, 0x7F]) = some [0xFF, 0x7E] := by decide
theorem test_avg_bpp2 :
    rowAfter 1 (onRow1 2 5 [0, 0x10, 0x20, 0x30, 0x40, 3, 1, 2, 3, 4]) =
      some [0x09, 0x12, 0x1F, 0x2D] := by decide
theorem test_paeth_bpp1 :
    rowAfter 1 (onRow1 1 5 [0, 0x64, 0x32, 0xC8, 0x0A, 4, 5, 5, 5, 5]) =
      some [0x69, 0x37, 0xCD, 0x0F] := by decide
theorem test_paeth_bpp3 :
    rowAfter 1 (onRow1 3 7 [0, 0x0A, 0x14, 0x1E, 0x28, 0x32, 0x3C, 4, 1, 2, 3, 4, 5, 6]) =
      some [0x0B, 0x16, 0x21, 0x2C, 0x37, 0x42] := by decide

/-! ### Predictors (V-P, V-A), the prefix unit (V-S5), the lanes (V-R18) -/

theorem test_paeth_ties :
    paeth 0 0 1 = 0 ∧ paeth 10 20 15 = 15 ∧ paeth 100 50 200 = 50 ∧ paeth 0 3 2 = 0 ∧
    paeth 0 3 1 = 3 ∧ paeth 0 4 1 = 4 ∧ paeth 0 2 1 = 1 ∧ paeth 255 255 0 = 255 := by decide
theorem test_paeth_circuits :
    paethBF 0 0 1 = 0 ∧ paethBF 0 3 2 = 0 ∧ paethBF 0 3 1 = 3 ∧ paethBF 100 50 200 = 50 ∧
    paethMask 0 0 1 = 0 ∧ paethMask 200 100 150 = 150 ∧ paethMask 0 255 0 = 255 ∧
    paethMask 0 0 255 = 0 := by decide
theorem test_avg_predictor :
    avgPred 255 255 = 255 ∧ avgPred 128 128 = 128 ∧ avgPred 200 100 = 150 ∧ avgPred 255 0 = 127 ∧
    avgPred8 254 255 = 254 ∧ avgPred8 255 1 = 128 := by decide
theorem test_sub_prefix_s5 :
    subPrefixRow 8 3 [1, 2, 3, 4, 5, 6, 0xFF, 0xFF, 0xFF, 1, 1, 1] =
      [1, 2, 3, 5, 7, 9, 4, 6, 8, 5, 7, 9] := by decide
theorem test_sub_prefix_block1 :
    subScan 8 8 3 (subLoad 8 8 4 [1, 2, 3, 4, 5, 6, 0xFF, 0xFF, 0xFF, 1, 1, 1]) =
      [0xFF, 1, 1, 0, 1, 1, 0, 1] := by decide
theorem test_lanes_r18 :
    (pixelSerialRun .paeth 3 false [0x0A, 0x14, 0x1E, 0x28, 0x32, 0x3C] [1, 2, 3, 4, 5, 6]).raw =
      [0x0B, 0x16, 0x21, 0x2C, 0x37, 0x42] := by decide

/-! ### CHECK (V-C), SCAN (V-T) and the registers (V-H) -/

/-- STATUS after the CHECK step of a configuration. -/
def checked (base len height bpl bpp : Nat) : Option Word :=
  (after 1 { at' .check (geo bpp height bpl) [] [] with
    cfg := { geo bpp height bpl with base := BitVec.ofNat 32 base, len := BitVec.ofNat 32 len } }).map
    State.statusWord

theorem test_check_bpp :
    checked 0x1000 7 1 7 0 = some 0x306 ∧ checked 0x1000 6 1 6 5 = some 0x306 ∧
    checked 0x1000 8 1 8 7 = some 0x306 ∧ checked 0x1000 10 1 10 9 = some 0x306 ∧
    checked 0x1000 7 0 7 0 = some 0x306 := by decide
theorem test_check_geometry :
    checked 0x1000 7 0 7 3 = some 0x206 ∧ checked 0x1000 1 1 1 1 = some 0x206 ∧
    checked 0x1000 3 1 3 3 = some 0x206 ∧ checked 0x1000 8 1 8 3 = some 0x206 ∧
    checked 0x1000 13 2 7 3 = some 0x206 ∧ checked 0xFFFFFFF0 19 1 19 6 = some 0x206 ∧
    checked 0 0xFFFFFFFF 0x10000 0x10001 8 = some 0x206 := by decide
theorem test_check_passes :
    checked 0x1000 14 2 7 3 = some 1 ∧ checked 0x1000 100 2 7 3 = some 1 ∧
    checked 0xFFFFFFF0 16 1 16 3 = some 1 := by decide

/-- V-T2's middle row: E_TAG for row 1, the region as it was. -/
theorem test_scan_bad_tag :
    (after 1 { at' .scan (geo 1 3 2) [0, 0x11, 7, 0x11, 9, 0x11] [] with r := 1 }).map (fun t =>
      (t.statusWord, t.regs.errRow, t.regs.errTag, t.mem.read 17)) = some (0x106, 1, 7, 0x11) := by decide
/-- V-T's E_MEM note: the tag read of row 2 gets an error response. -/
theorem test_scan_port_error :
    (after 1 { at' .scan (geo 1 3 2) [] [] with r := 2, errors := ⟨[20], []⟩ }).map (fun t =>
      (t.statusWord, t.regs.errRow, t.regs.errTag)) = some (0x406, 2, 0) := by decide

theorem test_reset_reads_zero : ∀ k < 16, State.reset.regValue (4 * k) = 0 := by decide
theorem test_bpp_keeps_four_bits :
    (after 1 (asked (.regWrite 0x18 .word 0xFFFFFFFF))).map (fun t => t.regValue 0x18) = some 0xF := by decide
theorem test_status_acknowledge :
    (after 1 { asked (.regWrite 0x04 .word 2) with
      regs := { Regs.reset with irqEn := true, done := true, err := true, errCode := .eBpp } }).map
      (fun t => (t.statusWord, t.irq, t.ctrlWord)) = some (0x304, false, 2) := by decide
theorem test_bus_errors :
    (after 1 (asked (.regRead 0x05 .byte))).map State.resp = some .busError ∧
    (after 1 (asked (.regWrite 0x08 .half 1))).map (fun t => (t.resp, t.regs.bufBase)) =
      some (.busError, 0) ∧
    (after 1 (asked (.regRead 0x02 .word))).map State.resp = some .busError := by decide
theorem test_start_unprogrammed :
    (after 2 (asked (.regWrite 0x00 .word 3))).map (fun t => (t.statusWord, t.irq)) =
      some (0x306, true) := by decide
theorem test_busy_write_ignored :
    (after 1 (twoRows .scan [.regWrite 0x10 .word 9])).map (fun t => (t.regs.height, t.statusWord)) =
      some (2, 1) := by decide

/-! ### What the host evaluates: a tag placed after reset runs as the next step -/

theorem test_fetch_word : ∀ k < 5,
    ((after 1 (State.reset.withFetchWord 8 k)).map fun t => (t.phase, t.regs.done, t.regs.errCode)) =
      some (.idle, true, .eNone) := by decide

/-! ### Witnesses: for each obligation's hypotheses, and each of its clauses, what meets them -/

/-- The same machine, its last operation completed. -/
def completed (inputs : List Event) : State :=
  { at' .idle (geo 1 2 2) [4, 7, 1, 9] inputs with regs := (Regs.reset.withConfig (geo 1 2 2)).complete .eNone 0 0 }

/-- The same machine in a running operation the hazard struck. -/
def struck (s : State) : State := { s with hazard := true, opHazard := true }

/-- These states meet the invariant, when their memory is canonical and a checked phase has a checked row. -/
theorem inv_at' {p : Phase} {c : Cfg} {bytes : List Byte} (inputs : List Event)
    (hm : (Memory.writeBytes [] 16 bytes).wf = true)
    (hc : p = .scan ∨ p = .run → c.bppOk = true ∧ c.geomOk = true ∧ 0 < c.height.toNat) :
    (at' p c bytes inputs).Inv where
  memWf := hm
  busyRecord := fun _ => ⟨rfl, rfl, rfl, rfl, rfl⟩
  busyConfig := fun _ => rfl
  checkedRow := hc
  errCode := fun h => nomatch h
  errTag := .inl rfl
  record := fun _ => ⟨fun h => (nomatch h), fun _ => rfl, fun _ _ => rfl⟩
  opHazard := fun h => nomatch h
  unseenFits := by
    show ∀ g ∈ if p = .idle then [] else [c.region.clip], g.hi ≤ Config.dataSpace
    split
    · exact fun _ h => nomatch h
    · exact fun g h => List.eq_of_mem_singleton h ▸ clip_hi_le c.base.isLt.le
  busyUnseen := by
    intro hb a ha hh
    have hp : p ≠ .idle := by simpa [State.busy, at'] using hb
    show ∃ g ∈ if p = .idle then [] else [c.region.clip], g.has a = true
    exact ⟨c.region.clip, by simp [hp], (clip_has_iff _ _).2 ⟨hh, ha⟩⟩

theorem witness_inv_busy (p : Phase) (inputs : List Event) : (twoRows p inputs).Inv :=
  inv_at' inputs (by decide) fun _ => by decide

theorem witness_inv_idle (inputs : List Event) : (completed inputs).Inv where
  memWf := by show (Memory.writeBytes [] 16 [4, 7, 1, 9]).wf = true; decide
  busyRecord := fun h => nomatch h
  busyConfig := fun h => nomatch h
  checkedRow := fun h => by rcases h with h | h <;> cases h
  errCode := fun h => nomatch h
  errTag := .inl rfl
  record := fun _ => ⟨fun h => (nomatch h), fun _ => rfl, fun _ _ => rfl⟩
  opHazard := fun h => nomatch h
  unseenFits := fun _ h => nomatch h
  busyUnseen := fun h => nomatch h

theorem witness_started : (twoRows .check []).Started where
  inv := witness_inv_busy .check []
  phase := rfl
  inputs := rfl
  noHazard := rfl

theorem witness_regionOk (p : Phase) (inputs : List Event) : (twoRows p inputs).regionOk := by
  intro a _
  constructor <;> exact List.not_mem_nil

theorem witness_rowOk_row0 (f : Instr) : (onRow0 1 3 [3, 1, 2]).rowOk f := by
  intro _
  refine ⟨?_, ?_, fun _ h => absurd h (by decide)⟩ <;> intro i hi <;>
    exact ⟨by
      have : i < 2 := hi
      show 17 + i < 4294967296
      omega, List.not_mem_nil⟩

theorem witness_rowOk_row1 (f : Instr) : (onRow1 1 3 [0, 1, 2, 4, 5, 6]).rowOk f := by
  intro _
  refine ⟨?_, ?_, fun _ _ => ?_⟩ <;> intro i hi <;>
    exact ⟨by
      have : i < 2 := hi
      first
        | (show 20 + i < 4294967296; omega)
        | (show 17 + i < 4294967296; omega), List.not_mem_nil⟩

theorem witness_not_rowOk :
    ¬ ({ onRow1 1 3 [0, 1, 2, 4, 5, 6] with errors := ⟨[18], []⟩ } : State).rowOk .up := by
  intro h
  exact (((h (by decide)).2.2 rfl (by decide)) 1 (by decide)).2 (by decide)

theorem witness_ResetEventRestoresResetValues :
    (completed [.reset]).inputs = .reset :: [] ∧ (completed [.reset]).busy = false := by decide

theorem witness_ResetWhileBusyDrawsRegion :
    (twoRows .run [.reset]).inputs = .reset :: [] ∧ (twoRows .run [.reset]).busy = true ∧
    (twoRows .run [.reset]).mem.wf = true ∧ (twoRows .run [.reset]).cfg.region.has 16 = true ∧
    (twoRows .run [.reset]).cfg.region.has 19 = true ∧ 19 < Config.dataSpace ∧
    (twoRows .run [.reset]).cfg.region.has 15 = false ∧
    (twoRows .run [.reset]).cfg.region.has 20 = false := by decide

theorem witness_RegisterReadsShowFields : ∀ k < 16,
    (asked (.regRead (4 * k) .word)).inputs = .regRead (4 * k) .word :: [] ∧ 4 * k % 4 = 0 ∧
      4 * k < 0x40 := by decide

theorem witness_UndefinedRegisterAccessGetsBusError :
    ¬ (AccessSize.byte = .word ∧ 0x04 % 4 = 0 ∧ 0x04 < 0x40) ∧
    ¬ (AccessSize.word = .word ∧ 0x02 % 4 = 0 ∧ 0x02 < 0x40) ∧
    ¬ (AccessSize.word = .word ∧ 0x40 % 4 = 0 ∧ 0x40 < 0x40) ∧
    (asked (.regRead 0x04 .byte)).inputs = .regRead 0x04 .byte :: [] ∧
    (asked (.regWrite 0x40 .word 1)).inputs = .regWrite 0x40 .word 1 :: [] := by decide

theorem witness_AcceptedStartSnapshots :
    (completed [.regWrite 0x00 .word 3]).inputs = .regWrite 0x00 .word 3 :: [] ∧
    (completed [.regWrite 0x00 .word 3]).busy = false ∧ (3 : Word).getLsbD 0 = true := by decide

theorem witness_CtrlWriteWithoutStart :
    (twoRows .scan [.regWrite 0x00 .word 3]).inputs = .regWrite 0x00 .word 3 :: [] ∧
    (twoRows .scan [.regWrite 0x00 .word 3]).busy = true ∧
    (completed [.regWrite 0x00 .word 2]).inputs = .regWrite 0x00 .word 2 :: [] ∧
    (2 : Word).getLsbD 0 = false := by decide

theorem witness_StatusWriteClearsFlags :
    (completed [.regWrite 0x04 .word 2]).inputs = .regWrite 0x04 .word 2 :: [] ∧
    (2 : Word).getLsbD 1 = true ∧ (2 : Word).getLsbD 2 = false ∧
    (4 : Word).getLsbD 1 = false ∧ (4 : Word).getLsbD 2 = true ∧
    (twoRows .scan [.regWrite 0x04 .word 6]).busy = true := by decide

theorem witness_StatusWriteClearsFlags_busy : (twoRows .scan [.regWrite 0x04 .word 6]).Inv :=
  witness_inv_busy .scan _

theorem witness_ConfigurationWriteWhileIdle : ∀ off ∈ [0x08, 0x0C, 0x10, 0x14, 0x18],
    (completed [.regWrite off .word 5]).inputs = .regWrite off .word 5 :: [] ∧
    (completed [.regWrite off .word 5]).busy = false ∧
    (twoRows .run [.regWrite off .word 5]).inputs = .regWrite off .word 5 :: [] ∧
    (twoRows .run [.regWrite off .word 5]).busy = true := by decide

theorem witness_ConfigurationHeldWhileBusy :
    engineStep (twoRows .scan []) = .next (nextTag (twoRows .scan [])) ∧
    (twoRows .run [.regWrite 0x10 .word 9]).busy = true := ⟨rfl, by decide⟩

theorem witness_ReadOnlyWritesIgnored : ∀ off ∈ [0x1C, 0x20, 0x24, 0x3C],
    (asked (.regWrite off .word 1)).inputs = .regWrite off .word 1 :: [] ∧ off % 4 = 0 ∧
      0x1C ≤ off ∧ off < 0x40 := by decide

theorem witness_InterruptIsEnabledDone :
    (after 1 { completed [.regWrite 0x04 .word 2] with regs := { (completed []).regs with irqEn := true } }).map
      State.irq = some false ∧
    (after 1 (completed [.regWrite 0x00 .word 2])).map State.irq = some true ∧
    (after 1 { completed [.reset] with regs := { (completed []).regs with irqEn := true } }).map State.irq =
      some false := by decide

/-- Two operations completed, the last on bytes 16 to 19 and before that one on bytes 17 to 25, neither end
observed. -/
def unobserved (inputs : List Event) : State :=
  { completed inputs with
    regs := { (completed []).regs with irqEn := true }
    unseen := [⟨16, 20⟩, ⟨17, 26⟩] }

/-- The same after a reset, or with DONE cleared unread: no end is left to observe (log 24). -/
def aborted (inputs : List Event) : State :=
  { unobserved inputs with regs := Regs.reset, cfg := Cfg.reset }

theorem witness_HostDataAccessOutsideRunningRegion :
    (twoRows .run [.dataWrite 20 1]).inputs = .dataWrite 20 1 :: [] ∧
    (twoRows .run [.dataRead 15]).inputs = .dataRead 15 :: [] ∧
    (twoRows .run [.dataRead 15]).cfg.region.has 15 = false ∧
    (twoRows .run [.dataWrite 20 1]).cfg.region.has 20 = false ∧
    (twoRows .run []).mem.wf = true ∧ (∀ g ∈ (twoRows .run []).unseen, g.has 15 = false) ∧
    (completed [.dataRead 17]).busy = false ∧ (∀ g ∈ (completed []).unseen, g.has 17 = false) ∧
    (completed [.dataWrite 20 5, .dataRead 20]).inputs = .dataWrite 20 5 :: .dataRead 20 :: [] ∧
    (completed []).regs.done = true ∧ (completed []).cfg.region.has 20 = false ∧
    (aborted [.dataWrite 17 5, .dataRead 17]).busy = false ∧
    (aborted []).regs.done = false ∧ (∃ g ∈ (aborted []).unseen, g.has 17 = true) ∧
    (unobserved [.dataWrite 17 5]).regs.done = true ∧ (unobserved []).cfg.region.has 17 = true ∧
    (∃ g ∈ (unobserved []).unseen, g.has 17 = true) := by decide

theorem witness_HostAccessToBusyRegion :
    (twoRows .run [.dataRead 16]).busy = true ∧ (twoRows .run [.dataRead 16]).cfg.region.has 16 = true ∧
    (twoRows .run [.dataWrite 19 1]).inputs = .dataWrite 19 1 :: [] ∧
    (twoRows .run [.dataWrite 19 1]).cfg.region.has 19 = true ∧
    (struck (twoRows .scan [])).hazard = true ∧
    (struck (twoRows .scan [])).inputs.head? ≠ some .reset ∧
    (struck (twoRows .scan [])).opHazard = true ∧ (struck (twoRows .scan [])).mem.wf = true ∧
    (struck (twoRows .scan [])).cfg.region.has 15 = false := by decide

theorem witness_HostAccessToBusyRegion_step :
    step (struck (twoRows .scan [])) = .next (nextTag (struck (twoRows .scan []))) := rfl

theorem witness_ResultsVisibleAfterDone :
    (unobserved [.dataRead 17]).inputs = .dataRead 17 :: [] ∧
    (∃ g ∈ (unobserved []).unseen, g.has 17 = true) ∧
    (completed [readStatus, .dataRead 30]).inputs = readStatus :: .dataRead 30 :: [] ∧
    (completed []).busy = false ∧ (completed []).regs.done = true ∧
    (∀ u ∈ (completed []).unseen, u.has 30 = false) ∧
    (unobserved []).busy = false ∧ (unobserved []).regs.done = true ∧
    (unobserved [.takeIrq, .dataRead 20]).regs.irqEn = true ∧
    (unobserved []).cfg.region.has 16 = true ∧ (unobserved []).cfg.region.has 19 = true ∧
    (∃ u ∈ (unobserved []).unseen, u.has 20 = true) ∧ (unobserved []).cfg.region.has 20 = false := by decide

/-- The last Engine step of an operation, CHECK's E_GEOM, then a read of its tag. -/
theorem witness_ResultsVisibleAfterDone_ended :
    let s := at' .check (geo 1 1 1) [] [.dataRead 16]
    s.Inv ∧ s.busy = true ∧ s.cfg.region.has 16 = true ∧ engineStep s = .next (finish .eGeom 0 0 s) ∧
      (finish .eGeom 0 0 s).busy = false ∧ (finish .eGeom 0 0 s).inputs = .dataRead 16 :: [] :=
  ⟨inv_at' _ (by decide) (fun h => by rcases h with h | h <;> cases h), rfl, rfl, rfl, rfl, rfl⟩

/-- The last operation's DONE shows its own region and nothing of the earlier one's beside it (R75, R76). A host
write is read back (R219), but not before the DONE of its byte's operation, which shows it. -/
theorem test_observe_one_operation :
    (after 2 (unobserved [readStatus, .dataRead 17])).map State.resp = some (.data 7) ∧
    (after 2 (unobserved [.takeIrq, readStatus])).map State.unseen = some [⟨20, 26⟩] ∧
    (after 2 (unobserved [.dataWrite 22 5, .dataRead 22])).map State.resp = some (.data 5) ∧
    (after 1 (unobserved [.dataWrite 17 5])).map (fun t => t.readIsOpen 17) = some true ∧
    (after 3 (unobserved [.dataWrite 17 5, readStatus, .dataRead 17])).map State.resp = some (.data 5) ∧
    (after 2 (aborted [.dataWrite 17 5, .dataRead 17])).map State.resp = some (.data 5) := by decide

/-- From START to the observation of DONE the region is open, tags too (R76), whatever ended the operation: E_GEOM,
E_TAG, a NONE row. A reset while busy ends that (R281). -/
theorem test_region_open_until_observed :
    (after 1 (completed [.regWrite 0x00 .word 1])).map State.unseen = some [⟨16, 20⟩] ∧
    (after 1 (at' .check (geo 1 1 1) [] [])).map (fun t => (t.busy, t.readIsOpen 16)) = some (false, true) ∧
    (after 1 (at' .scan (geo 1 1 2) [5, 1] [])).map (fun t => (t.busy, t.readIsOpen 16)) = some (false, true) ∧
    (after 1 (onRow0 1 3 [0, 1, 2])).map (fun t => (t.busy, t.readIsOpen 16, t.readIsOpen 18, t.readIsOpen 19)) =
      some (false, true, true, false) ∧
    (after 2 { onRow0 1 3 [0, 1, 2] with inputs := [.engine, readStatus] }).map State.unseen = some [] ∧
    (after 1 (twoRows .run [.reset])).map State.unseen = some [] := by decide

theorem witness_IdleLeftOnlyByStart :
    (completed []).phase = .idle ∧
    (after 1 (completed [.regWrite 0x00 .word 1])).map State.phase = some .check := by decide

theorem witness_PhaseChanges :
    (after 1 (completed [.dataRead 3])).map State.phase = some .idle ∧
    (after 1 (twoRows .check [])).map State.phase = some .scan ∧
    (after 1 (twoRows .scan [.engine])).map State.phase = some .scan ∧
    (after 1 (twoRows .run [])).map State.phase = some .run ∧
    (after 1 (twoRows .run [.reset])).map State.phase = some .idle ∧
    (after 1 (twoRows .run [.takeIrq])).map State.phase = some .run := by decide

theorem witness_CheckStepValidates :
    (twoRows .check []).phase = .check ∧ (twoRows .check []).opHazard = false ∧
    (geo 0 1 2).bpp.toNat ∉ [1, 2, 3, 4, 6, 8] ∧ (geo 1 1 2).bpp.toNat ∈ [1, 2, 3, 4, 6, 8] ∧
    (geo 1 1 2).geomOk = true ∧ (geo 1 1 1).geomOk = false ∧ (geo 8 1 9).geomOk = true ∧
    ({ geo 3 1 16 with base := 0xFFFFFFF0 } : Cfg).geomOk = true ∧
    ({ geo 1 1 18 with base := 0xFFFFFFF0 } : Cfg).geomOk = false := by decide

theorem witness_ScanStepValidatesTag :
    (twoRows .scan []).cfg.rowBase (twoRows .scan []).r.toNat = 16 ∧
    ({ twoRows .scan [] with errors := ⟨[16], []⟩ } : State).errors.reads = [16] ∧
    5 ≤ ((at' .scan (geo 1 1 2) [5, 1] []).mem.tag (geo 1 1 2) 0).toNat ∧
    ((twoRows .scan []).mem.tag (geo 1 2 2) 0).toNat < 5 ∧ (twoRows .scan []).r + 1 ≠ (geo 1 2 2).height ∧
    ((twoRows .scan []).mem.tag (geo 1 2 2) 1).toNat < 5 ∧
    ({ twoRows .scan [] with r := 1 } : State).r + 1 = (geo 1 2 2).height := by decide

theorem witness_StepRunsDecodedFilter :
    (twoRows .run []).phase = .run ∧ (twoRows .run []).cfg.rowBase 0 < Config.dataSpace ∧
    (twoRows .run []).cfg.rowBase 0 ∉ (twoRows .run []).errors.reads ∧
    decodeTag ((twoRows .run []).mem.tag (geo 1 2 2) 0) = .ok .paeth ∧
    (twoRows .run [.engine]).inputs = .engine :: [] := by decide

theorem witness_RunStepIllegalTag :
    (onRow0 1 2 [5, 1]).phase = .run ∧ (onRow0 1 2 [5, 1]).inputs = [] ∧
    (onRow0 1 2 [5, 1]).opHazard = false ∧ (onRow0 1 2 [5, 1]).cfg.rowBase 0 < Config.dataSpace ∧
    (onRow0 1 2 [5, 1]).cfg.rowBase 0 ∉ (onRow0 1 2 [5, 1]).errors.reads ∧
    5 ≤ ((onRow0 1 2 [5, 1]).mem.tag (geo 1 1 2) 0).toNat := by decide

theorem witness_PortErrorEndsOperation_tag :
    let s := { twoRows .scan [] with errors := ⟨[16], []⟩ }
    s.inputs = [] ∧ s.opHazard = false ∧ s.mem.wf = true ∧
    s.cfg.rowBase s.r.toNat + s.cfg.bpl.toNat ≤ Config.dataSpace ∧
    s.cfg.rowBase s.r.toNat < Config.dataSpace ∧
    (s.phase = .scan ∨ s.phase = .run) ∧ s.cfg.rowBase s.r.toNat ∈ s.errors.reads := by decide

theorem witness_PortErrorEndsOperation_payload :
    let s := { onRow1 1 3 [0, 1, 2, 2, 5, 6] with errors := ⟨[18], []⟩ }
    s.phase = .run ∧ s.inputs = [] ∧ s.opHazard = false ∧ s.mem.wf = true ∧
    s.cfg.rowBase s.r.toNat + s.cfg.bpl.toNat ≤ Config.dataSpace ∧
    s.cfg.rowBase s.r.toNat ∉ s.errors.reads ∧
    decodeTag (s.mem.tag s.cfg s.r.toNat) = .ok .up := by decide

/-- What the five row results assume, on row 0 and on row 1, for a row that is not and one that is the last. -/
theorem witness_row_results :
    (onRow0 1 3 [3, 1, 2]).rowUnharmed ∧ (onRow1 1 3 [0, 1, 2, 4, 5, 6]).rowUnharmed ∧
    (struck (twoRows .run [])).rowUnharmed ∧
    (onRow0 1 3 [3, 1, 2]).mem.wf = true ∧ (onRow1 1 3 [0, 1, 2, 4, 5, 6]).mem.wf = true ∧
    (onRow0 1 3 [3, 1, 2]).cfg.bppOk = true ∧ (onRow1 1 3 [0, 1, 2, 4, 5, 6]).cfg.bppOk = true ∧
    1 < (onRow0 1 3 [3, 1, 2]).cfg.payloadLen := by
  refine ⟨.inl rfl, .inl rfl, .inr ?_, ?_, ?_, ?_, ?_, ?_⟩ <;> decide

theorem witness_FilterFrame (f : Instr) :
    exec f (onRow0 1 3 [3, 1, 2]) =
      .next (nextRow (if f = .none then onRow0 1 3 [3, 1, 2] else rowWritten f (onRow0 1 3 [3, 1, 2]))) :=
  exec_ok (witness_rowOk_row0 f)

theorem witness_FilterFrame_error :
    exec .up { onRow1 1 3 [0, 1, 2, 4, 5, 6] with errors := ⟨[18], []⟩ } =
      .next (raiseMem { onRow1 1 3 [0, 1, 2, 4, 5, 6] with errors := ⟨[18], []⟩ }) := rfl

theorem witness_FilterFrame_outside :
    exec .sub { onRow0 1 2 [] with cfg := { geo 1 1 2 with base := 0xFFFFFFFF } } =
      .fault .outsideDataSpace ∧
    Config.dataSpace ≤ ({ geo 1 1 2 with base := 0xFFFFFFFF } : Cfg).payloadAt 0 ∧
    0 < (geo 1 1 2).payloadLen := ⟨rfl, by decide, by decide⟩

theorem witness_LastRowUnderHazard :
    (struck (onRow0 1 3 [3, 1, 2])).opHazard = true ∧
    (struck (onRow0 1 3 [3, 1, 2])).r + 1 = (geo 1 1 3).height ∧
    (struck (onRow0 1 3 [3, 1, 2])).mem.wf = true ∧ (geo 1 1 3).geomOk = true ∧
    (struck (onRow0 1 3 [3, 1, 2])).r.toNat < (geo 1 1 3).height.toNat ∧
    (geo 1 1 3).region.has 18 = true ∧ (geo 1 1 3).region.has 19 = false := by decide

theorem witness_LastRowUnderHazard_rowOk (f : Instr) : (struck (onRow0 1 3 [3, 1, 2])).rowOk f :=
  witness_rowOk_row0 f

/-- For the statements about an Engine step: one that answers, from the invariant, without E_MEM. -/
theorem witness_EngineWritesOnlyItsRow :
    (twoRows .run []).Inv ∧ (twoRows .run []).opHazard = false ∧
    engineStep (twoRows .run []) = .next (nextRow (rowWritten .paeth (twoRows .run []))) ∧
    (nextRow (rowWritten .paeth (twoRows .run []))).regs.errCode ≠ .eMem :=
  ⟨witness_inv_busy .run [], rfl, rfl, by decide⟩

theorem witness_EngineReadsOnlyRegion :
    let s := twoRows .run []
    let s' := { twoRows .run [] with mem := (twoRows .run []).mem.write 20 1 }
    sameButMem s s' ∧ agreeOn s.cfg.region s.mem s'.mem ∧ s'.mem.wf = true ∧ s.mem ≠ s'.mem := by
  refine ⟨rfl, fun a ha => ?_, by decide, by decide⟩
  have h : 16 ≤ a ∧ a < 20 := by simpa [twoRows, at', geo, Cfg.region, Region.has] using ha
  have : a = 16 ∨ a = 17 ∨ a = 18 ∨ a = 19 := by omega
  rcases this with rfl | rfl | rfl | rfl <;> rfl

theorem witness_DatapathRegistersUnobservable :
    step (twoRows .run []) = .next (nextRow (rowWritten .paeth (twoRows .run []))) := rfl

theorem witness_SubIsLanePrefixSum : 0 < 3 ∧ 11 < ([1, 2, 3, 4, 5, 6, 0xFF, 0xFF, 0xFF, 1, 1, 1] : List Byte).length := by
  decide

theorem witness_LanesIndependent :
    ∀ j ≤ 2, j % 2 = 2 % 2 →
      ([1, 2, 3] : List Byte).getD j 0 = ([1, 9, 3] : List Byte).getD j 0 ∧
      ([4, 5, 6] : List Byte).getD j 0 = ([4, 8, 6] : List Byte).getD j 0 := by decide

theorem witness_PaethIsNearestOperand :
    (paeth 0 3 2 = 0 ∧ (0 + 3 - 2 - 0 : Int).natAbs ≤ (0 + 3 - 2 - 3 : Int).natAbs) ∧
    (paeth 0 3 1 = 3 ∧ ¬ (0 + 3 - 1 - 0 : Int).natAbs ≤ (0 + 3 - 1 - 3 : Int).natAbs) ∧
    (paeth 0 2 1 = 1 ∧ ¬ (0 + 2 - 1 - 2 : Int).natAbs ≤ (0 + 2 - 1 - 1 : Int).natAbs) := by decide

theorem witness_PaethProperties :
    (0 : Byte).toNat ≤ min (255 : Byte).toNat (0 : Byte).toNat ∧
    max (255 : Byte).toNat (3 : Byte).toNat ≤ (255 : Byte).toNat := by decide

theorem witness_ScanStepsSumLane :
    (0 < 3 ∧ 7 < ([1, 2, 3, 4, 5, 6, 0xFF, 0xFF] : List Byte).length) ∧
    (8 ≤ 3 * 2 ^ 2 ∧ ∀ k < 2, 3 * 2 ^ k < 8) ∧ ([1, 2, 3, 4, 5, 6, 0xFF, 0xFF] : List Byte).length ≤ 8 := by
  decide

theorem witness_SubPrefixEqualsReference :
    Config.subWAllowed Config.subW ∧ Config.subWAllowed 8 ∧ 8 ∈ Config.bppSet ∧ 1 ∈ Config.bppSet :=
  ⟨⟨by decide, 4, rfl⟩, ⟨by decide, 3, rfl⟩, by decide, by decide⟩

theorem witness_PixelSerialEqualsReference :
    3 ∈ Config.bppSet ∧ ([1, 2, 3, 4, 5, 6] : List Byte).length % 3 = 0 ∧
    0 < ([1, 2, 3, 4, 5, 6] : List Byte).length := by decide

theorem witness_StepKeepsInvariant :
    (twoRows .check []).Inv ∧ step (twoRows .check []) = .next { twoRows .check [] with phase := .scan } :=
  ⟨witness_inv_busy .check [], rfl⟩

theorem witness_BusyRecordZero :
    step (twoRows .scan []) = .next (nextTag (twoRows .scan [])) ∧
    (nextTag (twoRows .scan [])).busy = true ∧ (twoRows .scan []).regs.done = false :=
  ⟨rfl, by decide, by decide⟩

theorem witness_OperationResult :
    (twoRows .check []).cfg.bppOk = true ∧ (twoRows .check []).cfg.geomOk = true ∧
    (twoRows .check []).mem.tagsLegal (twoRows .check []).cfg := ⟨rfl, rfl, by unfold Memory.tagsLegal; decide⟩

theorem witness_OperationReportsLowestBadTag :
    let s := at' .check (geo 1 3 2) [0, 0x11, 7, 0x11, 9, 0x11] []
    s.cfg.bppOk = true ∧ s.cfg.geomOk = true ∧ 1 < s.cfg.height.toNat ∧
    5 ≤ (s.mem.tag s.cfg 1).toNat ∧ ∀ q < 1, (s.mem.tag s.cfg q).toNat < 5 := by decide

theorem witness_OperationReportsLowestBadTag_started :
    (at' .check (geo 1 3 2) [0, 0x11, 7, 0x11, 9, 0x11] []).Started ∧
    (at' .check (geo 1 3 2) [0, 0x11, 7, 0x11, 9, 0x11] []).regionOk :=
  ⟨⟨inv_at' [] (by decide) fun _ => by decide, rfl, rfl, rfl⟩,
    fun _ _ => ⟨List.not_mem_nil, List.not_mem_nil⟩⟩

theorem witness_AllNoneOperationChangesNothing :
    let s := at' .check (geo 1 2 2) [0, 7, 0, 9] []
    s.cfg.bppOk = true ∧ s.cfg.geomOk = true ∧ ∀ r < s.cfg.height.toNat, s.mem.tag s.cfg r = 0 := by decide

theorem witness_AllNoneOperationChangesNothing_started :
    (at' .check (geo 1 2 2) [0, 7, 0, 9] []).Started ∧ (at' .check (geo 1 2 2) [0, 7, 0, 9] []).regionOk :=
  ⟨⟨inv_at' [] (by decide) fun _ => by decide, rfl, rfl, rfl⟩,
    fun _ _ => ⟨List.not_mem_nil, List.not_mem_nil⟩⟩

theorem witness_RunShorthandStartsOperation :
    (completed (runShorthand 16 4 2 2 1 true)).busy = false ∧
    (completed (runShorthand 16 4 2 2 1 true)).inputs = runShorthand 16 4 2 2 1 true ++ [] := by decide

theorem witness_TagDecoding : 5 ≤ (5 : Byte).toNat ∧ 5 ≤ (255 : Byte).toNat := by decide

theorem witness_ImageDecodeEncode : imageWf 3 7 [⟨.paeth, [10, 20, 30, 0, 0, 0]⟩, ⟨.sub, [5, 5, 5, 5, 5, 5]⟩] = true := by
  decide

theorem witness_MemoryCanonicalUnique :
    (Memory.write (Memory.write [] 4 7) 2 9).wf = true ∧
    (Memory.write (Memory.write [] 2 9) 4 7).wf = true ∧
    Memory.write (Memory.write [] 4 7) 2 9 = Memory.write (Memory.write [] 2 9) 4 7 := by decide

theorem witness_FetchWordRuns :
    (onRow1 1 3 [0, 1, 2, 4, 5, 6]).mem.wf = true ∧ (onRow1 1 3 [0, 1, 2, 4, 5, 6]).atRow = true ∧
    State.reset.mem.wf = true ∧ State.reset.atRow = false ∧ decodeTableWord 8 4 = some .paeth := by decide

theorem witness_RowRecurrence : 0 < 8 ∧ 0 < ([1] : List Byte).length ∧ 0 < 1 := by decide

theorem witness_FirstRowFilters : 0 < 1 ∧ 2 < ([0x64, 0, 0] : List Byte).length ∧
    defilterRow .avg 1 true [] [0x64, 0, 0] = [0x64, 0x32, 0x19] := by decide

theorem witness_ForwardFilterRoundTrip : ∀ bpp ∈ [1, 2, 3, 4, 6, 8], bpp ∈ Config.bppSet ∧
    forwardRow .sub bpp true [] [] = [] := by decide

theorem witness_EngineLeavesOutsideAlone :
    (twoRows .run []).Inv ∧
    engineStep (twoRows .run []) = .next (nextRow (rowWritten .paeth (twoRows .run []))) ∧
    (twoRows .run []).cfg.region.has 20 = false ∧ (twoRows .run []).cfg.region.has 15 = false :=
  ⟨witness_inv_busy .run [], rfl, by decide, by decide⟩

theorem witness_InvariantStepAnswersNext : (completed [.reset]).Inv := witness_inv_idle _

theorem witness_OperationStepBound :
    (twoRows .check []).Inv ∧ (twoRows .check []).phase = .check ∧ (twoRows .check []).inputs = [] :=
  ⟨witness_inv_busy .check [], rfl, rfl⟩

end Sys2Proof.Tests
end

section
/-! The reset state (R48), and the invariant of every run: it holds at reset and every step keeps it. -/

namespace Sys2Proof.Machine

/-- Settles O1: each field of the reset state, and the register block read offset by offset. -/
theorem resetStateValues : Obligations.ResetStateValues := by
  refine ⟨rfl, rfl, rfl, rfl, rfl, rfl, rfl, fun off => ?_⟩
  unfold State.regValue
  split <;> rfl

/-! ### The invariant -/

/-- An error record that the table of R240 has: a tag beside E_TAG only, a row beside E_TAG and E_MEM only. -/
structure TableRecord (code : ErrCode) (row : Word) (tag : Byte) : Prop where
  tagOfETag : code = .eTag → 5 ≤ tag.toNat
  noTag : code ≠ .eTag → tag = 0
  noRow : code ≠ .eTag → code ≠ .eMem → row = 0

/-- A recorded tag is 0 or an illegal one (R36). -/
theorem TableRecord.tag_cases {code : ErrCode} {row : Word} {tag : Byte} (h : TableRecord code row tag) :
    tag = 0 ∨ 5 ≤ tag.toNat := by
  by_cases hc : code = .eTag
  · exact .inr (h.tagOfETag hc)
  · exact .inl (h.noTag hc)

/-- Codes without a tag or a row go with a record of zeros (R240). -/
theorem TableRecord.zero {code : ErrCode} (h : code ≠ .eTag) : TableRecord code 0 0 :=
  ⟨fun hc => absurd hc h, fun _ => rfl, fun _ _ => rfl⟩

theorem State.Inv.tableRecord {s : State} (h : s.Inv) (hz : s.hazard = false) :
    TableRecord s.regs.errCode s.regs.errRow s.regs.errTag := by
  obtain ⟨htag, hno, hrow⟩ := h.record hz
  exact ⟨htag, hno, hrow⟩

/-- What an operation that ends must bring along of the invariant: the clauses that do not ask whether the
engine is busy, or what the record is. -/
structure State.Sound (s : State) : Prop where
  memWf : s.mem.wf = true
  opHazard : s.opHazard = true → s.hazard = true
  unseenFits : ∀ g ∈ s.unseen, g.hi ≤ Config.dataSpace

theorem State.Inv.sound {s : State} (h : s.Inv) : s.Sound := ⟨h.memWf, h.opHazard, h.unseenFits⟩

/-- An idle state meets the invariant as soon as its record is sound: the other clauses speak of a busy engine. -/
theorem State.Sound.inv_of_idle {s : State} (h : s.Sound) (hi : s.phase = .idle)
    (errCode : s.regs.err = true → s.regs.errCode ≠ .eNone)
    (errTag : s.regs.errTag = 0 ∨ 5 ≤ s.regs.errTag.toNat)
    (record : s.hazard = false → TableRecord s.regs.errCode s.regs.errRow s.regs.errTag) : s.Inv := by
  have idle : s.busy ≠ true := by simp [State.busy, hi]
  exact
    { memWf := h.memWf
      busyRecord := fun hb => absurd hb idle
      busyConfig := fun hb => absurd hb idle
      checkedRow := by simp [hi]
      errCode := errCode
      errTag := errTag
      record := fun hz => ⟨(record hz).tagOfETag, (record hz).noTag, (record hz).noRow⟩
      opHazard := h.opHazard
      unseenFits := h.unseenFits
      busyUnseen := fun hb => absurd hb idle }

/-- Settles O48: the reset state is idle with an empty record. -/
theorem invariantAtReset : Obligations.InvariantAtReset :=
  State.Sound.inv_of_idle ⟨rfl, nofun, nofun⟩ rfl nofun (.inl rfl) fun _ => .zero nofun

/-! ### The Engine keeps the invariant -/

/-- However an operation ends, with a record of the table or struck by the hazard, the invariant holds. -/
theorem endOperation_inv {code : ErrCode} {row : Word} {tag : Byte} {s : State} (h : s.Sound)
    (hr : TableRecord code row tag) : (endOperation code row tag s).Inv := by
  have sound : (endOperation code row tag s).Sound :=
    ⟨endOperation_wf _ _ _ h.memWf, by simpa using h.opHazard, by simpa using h.unseenFits⟩
  refine sound.inv_of_idle (endOperation_phase ..) ?_ ?_ ?_ <;>
    rcases endOperation_cases code row tag s with ⟨_, e⟩ | ⟨ho, e⟩ <;> rw [e]
  · simp
  · simp [finishHazard]
  · exact hr.tag_cases
  · exact recordableTag_cases _
  · exact fun _ => hr
  · exact fun hz => absurd (h.opHazard ho) (by simpa using hz)

theorem raiseMem_inv {s : State} (h : s.Sound) : (raiseMem s).Inv :=
  endOperation_inv ⟨drawRegion_wf h.memWf, h.opHazard, h.unseenFits⟩
    ⟨nofun, fun _ => rfl, fun _ hm => absurd rfl hm⟩

/-- The next row is a row of the operation, unless the row was the last (R183, R185). -/
theorem succ_row_lt {r height : Word} (hlt : r.toNat < height.toNat) (hne : r + 1 ≠ height) :
    (r + 1).toNat < height.toNat := by
  bv_omega

/-- A busy engine whose geometry is checked may go to row 0 in any phase (R182, R183). -/
theorem firstRow_inv {s : State} (h : s.Inv) (busy : s.busy = true) (hb : s.cfg.bppOk = true)
    (hg : s.cfg.geomOk = true) (p : Phase) : State.Inv { s with phase := p, r := 0 } :=
  { h with
    busyRecord := fun _ => h.busyRecord busy
    busyConfig := fun _ => h.busyConfig busy
    checkedRow := fun _ => ⟨hb, hg, ((geomOk_iff _).1 hg).1⟩
    busyUnseen := fun _ => h.busyUnseen busy }

theorem checkStep_inv {s : State} (h : s.Inv) (hp : s.phase = .check) : (checkStep s).Inv := by
  rcases checkStep_cases s with ⟨_, e⟩ | ⟨_, _, e⟩ | ⟨hb, hg, e⟩ <;> rw [e]
  · exact endOperation_inv h.sound (.zero nofun)
  · exact endOperation_inv h.sound (.zero nofun)
  · exact firstRow_inv h ((busy_iff s).2 (by simp [hp])) hb hg _

theorem nextTag_inv {s : State} (h : s.Inv) (hp : s.phase = .scan) : (nextTag s).Inv := by
  obtain ⟨hb, hg, hr⟩ := h.checkedRow (.inl hp)
  rcases nextTag_cases s with ⟨hn, e⟩ | ⟨_, e⟩ <;> rw [e]
  · exact { h with checkedRow := fun _ => ⟨hb, hg, succ_row_lt hr hn⟩ }
  · exact firstRow_inv h ((busy_iff s).2 (by simp [hp])) hb hg _

theorem nextRow_inv {s : State} (h : s.Inv) (hp : s.phase = .run) : (nextRow s).Inv := by
  obtain ⟨hb, hg, hr⟩ := h.checkedRow (.inr hp)
  rcases nextRow_cases s with ⟨hn, e⟩ | ⟨_, e⟩ <;> rw [e]
  · exact { h with checkedRow := fun _ => ⟨hb, hg, succ_row_lt hr hn⟩ }
  · exact endOperation_inv ⟨h.memWf, h.opHazard, h.unseenFits⟩ (.zero nofun)

/-- A row of a checked geometry ends inside the data space (R184, R242). -/
theorem row_fits {c : Cfg} {r : Nat} (hg : c.geomOk = true) (hr : r < c.height.toNat) :
    c.payloadAt r + c.payloadLen ≤ Config.dataSpace := by
  obtain ⟨_, hbpl, _, _, hfit⟩ := (geomOk_iff c).1 hg
  have hmul : (r + 1) * c.bpl.toNat ≤ c.height.toNat * c.bpl.toNat := Nat.mul_le_mul_right _ hr
  rw [Nat.succ_mul] at hmul
  simp only [Cfg.payloadAt, Cfg.rowBase, Cfg.payloadLen]
  omega

theorem rowWritten_inv (f : Instr) {s : State} (h : s.Inv) (hp : s.phase = .run) : (rowWritten f s).Inv := by
  obtain ⟨_, hg, hr⟩ := h.checkedRow (.inr hp)
  exact { h with memWf := wf_writeBytes h.memWf _ _ (by simpa using row_fits hg hr) }

theorem engineStep_inv {s t : State} (h : s.Inv) (hs : engineStep s = .next t) : t.Inv := by
  rcases engineStep_cases hs with
    ⟨_, rfl⟩ | ⟨hp, rfl⟩ | ⟨_, rfl⟩ | ⟨b, _, _, h5, rfl⟩ | ⟨b, hp, _, _, rfl⟩ | ⟨b, hp, _, _, _, rfl⟩
  · exact h
  · exact checkStep_inv h hp
  · exact raiseMem_inv h.sound
  · exact endOperation_inv h.sound ⟨fun _ => h5, fun hc => absurd rfl hc, fun hc => absurd rfl hc⟩
  · exact nextTag_inv h hp
  · split
    · exact nextRow_inv h hp
    · exact nextRow_inv (rowWritten_inv _ h hp) hp

/-! ### The host and the platform keep the invariant -/

/-- While DONE is 1 the engine is idle: the record is 0 while it is busy (R214). -/
theorem State.Inv.idle_of_done {s : State} (h : s.Inv) (hd : s.regs.done = true) : s.busy ≠ true :=
  fun hb => by simp [(h.busyRecord hb).1] at hd

theorem observeDone_inv {s : State} (h : s.Inv) {b : Bool} (hd : b = true → s.regs.done = true) :
    (s.observeDone b).Inv := by
  cases b with
  | false => exact { h with }
  | true =>
    exact
      { h with
        unseenFits := uncover_hi_le h.unseenFits
        busyUnseen := fun hb => absurd hb (h.idle_of_done (hd rfl)) }

theorem hostRegRead_inv {s : State} (h : s.Inv) (off : Nat) (size : AccessSize) :
    (hostRegRead off size s).Inv := by
  unfold hostRegRead
  split
  · have := observeDone_inv h (b := decide (off = 0x04) && s.regs.done) (by simp)
    exact { this with }
  · exact { h with }

theorem startOperation_inv {s : State} (h : s.Inv) (irqEn : Bool) : (startOperation irqEn s).Inv where
  memWf := h.memWf
  busyRecord _ := ⟨rfl, rfl, rfl, rfl, rfl⟩
  busyConfig _ := rfl
  checkedRow := by simp
  errCode := nofun
  errTag := .inl rfl
  record _ := ⟨nofun, fun _ => rfl, fun _ _ => rfl⟩
  opHazard := nofun
  unseenFits := by
    have lo : s.regs.snapshot.region.lo ≤ Config.dataSpace := Nat.le_of_lt s.regs.bufBase.isLt
    simpa [clip_hi_le lo] using h.unseenFits
  busyUnseen _ a ha hin := ⟨_, List.mem_cons_self, (clip_has_iff _ a).2 ⟨hin, ha⟩⟩

theorem clearFlags_inv {s : State} (h : s.Inv) (w : Word) :
    State.Inv { s with regs := s.regs.clearFlags w } :=
  { h with
    busyRecord := fun hb => by simp [h.busyRecord hb]
    errCode := fun he => h.errCode (Bool.and_eq_true_iff.1 he).1 }

theorem configure_inv {s : State} (h : s.Inv) (hb : s.busy = false) (off : Nat) (w : Word) :
    State.Inv { s with regs := s.regs.configure off w } := by
  obtain ⟨_, _, herr, hcode, hrow, htag⟩ := configure_record off w s.regs
  have hi : s.phase = .idle := by simpa [State.busy] using hb
  refine State.Sound.inv_of_idle ⟨h.memWf, h.opHazard, h.unseenFits⟩ hi ?_ ?_ ?_ <;>
    simp only [herr, hcode, hrow, htag]
  · exact h.errCode
  · exact h.errTag
  · exact h.tableRecord

theorem hostRegWrite_inv {s : State} (h : s.Inv) (off : Nat) (size : AccessSize) (w : Word) :
    (hostRegWrite off size w s).Inv := by
  rcases hostRegWrite_cases off size w s with
    ⟨_, e⟩ | ⟨_, _, _, e⟩ | ⟨_, _, e⟩ | ⟨_, e⟩ | ⟨_, _, _, e⟩ | ⟨_, _, hb, e⟩ <;> rw [e]
  · exact { h with }
  · exact { startOperation_inv h (w.getLsbD 1) with }
  · exact { h with }
  · exact { clearFlags_inv h w with }
  · exact { h with }
  · exact { configure_inv h hb off w with }

theorem hostDataRead_inv {s : State} (h : s.Inv) (a : Word) : (hostDataRead a s).Inv := by
  rcases hostDataRead_cases a s with ⟨_, e⟩ | ⟨_, e⟩ <;> rw [e] <;> exact { h with }

theorem markHazard_inv {s : State} (h : s.Inv) : s.markHazard.Inv :=
  { h with record := nofun, opHazard := fun _ => rfl }

/-- A host write leaves the running operation's region open to reads, the written byte too (R76). -/
theorem hostDataWrite_inv {s : State} (h : s.Inv) (a : Word) (b : Byte) : (hostDataWrite a b s).Inv := by
  have wf := hostDataWrite_wf h.memWf a b
  have running : s.busy = true → ∀ x < Config.dataSpace, s.cfg.region.has x = true →
      ∃ g ∈ (hostDataWrite a b s).unseen, g.has x = true := fun hb x hx hin =>
    (hostDataWrite_unseen_iff a b s x).2
      ⟨h.busyUnseen hb x hx hin, fun _ => by simp [State.endObservable, hb, hin]⟩
  have fits : ∀ g ∈ (hostDataWrite a b s).unseen, g.hi ≤ Config.dataSpace := by
    unfold hostDataWrite
    dsimp only
    split
    · exact h.unseenFits
    · exact uncover_hi_le h.unseenFits
  rcases hostDataWrite_cases a b s with ⟨_, e⟩ | ⟨_, e⟩ <;> rw [e] at wf fits running ⊢
  · exact { markHazard_inv h with memWf := wf }
  · exact { h with memWf := wf, unseenFits := fits, busyUnseen := running }

theorem conflict_inv {s : State} (h : s.Inv) : (conflict s).Inv := by
  unfold conflict
  split
  · exact markHazard_inv h
  · exact h

theorem resetEngine_inv {s : State} (h : s.Inv) : (resetEngine s).Inv := by
  have unseen : ∀ g ∈ (resetEngine s).unseen, g.hi ≤ Config.dataSpace := by
    unfold resetEngine
    split
    · exact uncover_hi_le h.unseenFits
    · exact h.unseenFits
  exact State.Sound.inv_of_idle ⟨resetEngine_wf h.memWf, nofun, unseen⟩ rfl nofun (.inl rfl)
    fun _ => .zero nofun

theorem withInputs_inv {s : State} (h : s.Inv) (rest : List Event) : (s.withInputs rest).Inv := { h with }

theorem takeEvent_inv {s t : State} {e : Event} (h : s.Inv) (hs : takeEvent e s = .next t) : t.Inv := by
  cases e <;> simp only [takeEvent, Host.Outcome.next.injEq] at hs
  case engine => exact engineStep_inv h hs
  all_goals subst hs
  case regRead off size => exact hostRegRead_inv h off size
  case regWrite off size w => exact hostRegWrite_inv h off size w
  case dataRead a => exact hostDataRead_inv h a
  case dataWrite a b => exact hostDataWrite_inv h a b
  case takeIrq =>
    have := observeDone_inv h (b := s.irq) (by simp [State.irq])
    exact { this with }
  case portErrors errs => exact { h with }
  case regionConflict => exact conflict_inv h
  case reset => exact resetEngine_inv h

/-- Settles O49: the Engine's step and every event of the host and the platform keep the invariant. -/
theorem stepKeepsInvariant : Obligations.StepKeepsInvariant := by
  intro s t h hs
  cases hi : s.inputs with
  | nil => exact engineStep_inv h (step_nil hi ▸ hs)
  | cons e rest =>
    exact takeEvent_inv (withInputs_inv h rest) (step_cons hi ▸ hs)

end Sys2Proof.Machine
end

section
/-! The frame of the five filters (R39, R68, R185): what a row changes, and where a filter stops. -/

namespace Sys2Proof.Machine

/-- Reads that start past the data space get no data (R46). -/
theorem portReads_outside {s : State} {a n : Nat} (hn : 0 < n) (ha : Config.dataSpace ≤ a) :
    s.portReads a n = .failed .outside := by
  cases n with
  | zero => omega
  | succ n => simp only [State.portReads, State.portRead, if_pos ha]

/-- A row past the data space stops the machine at its first payload byte (log 10). -/
theorem reconstructRow_outside (f : Instr) {s : State} (hl : 0 < s.cfg.payloadLen)
    (ha : Config.dataSpace ≤ s.cfg.payloadAt s.r.toNat) : reconstructRow f s = .fault .outsideDataSpace := by
  simp only [reconstructRow, portReads_outside hl ha, portFailure]

/-- A filter stops only at a row that reaches past the data space. -/
theorem exec_fault {f : Instr} {s : State} {e : Fault} (h : exec f s = .fault e) :
    e = .outsideDataSpace ∧ f ≠ .none ∧ Config.dataSpace < s.cfg.payloadAt s.r.toNat + s.cfg.payloadLen := by
  have hf : f ≠ .none := by
    rintro rfl
    cases h
  refine ⟨by cases e; rfl, hf, ?_⟩
  by_contra hfit
  obtain ⟨t, ht⟩ := reconstructRow_next (f := f) (Nat.le_of_not_lt hfit)
  rw [exec_of_ne_none hf, ht] at h
  cases h

/-- The end of a RUN step that no hazard ends: `finish` after the last row, the next row else (R185). -/
theorem nextRow_unharmed {s : State} (h : s.rowUnharmed) :
    nextRow s = if s.r + 1 = s.cfg.height then finish .eNone 0 0 { s with r := s.r + 1 }
      else { s with r := s.r + 1 } := by
  rcases nextRow_cases s with ⟨hn, e⟩ | ⟨hl, e⟩
  · rw [e, if_neg hn]
  · rw [e, if_pos hl]
    exact endOperation_noHazard _ _ _ (h.resolve_right fun hn => hn hl)

/-- What the end of an unharmed RUN step changes: the row counter, and after the last row record and phase. -/
theorem nextRow_rowFrame {f : Instr} {s : State} (h : s.rowUnharmed) : RowFrame f s (nextRow s) := by
  rw [nextRow_unharmed h]
  by_cases hl : s.r + 1 = s.cfg.height
  · rw [if_pos hl]
    constructor
    case regs => exact (if_pos hl).symm
    case phase => exact (if_pos hl).symm
    all_goals intros; rfl
  · rw [if_neg hl]
    constructor
    case regs => exact (if_neg hl).symm
    case phase => exact (if_neg hl).symm
    all_goals intros; rfl

/-- An answered row writes its payload and the datapath registers of its own circuit, no more (R43, R68). -/
theorem rowWritten_rowFrame (f : Instr) {s : State} (h : s.rowUnharmed) :
    RowFrame f s (nextRow (rowWritten f s)) := by
  have frame : RowFrame f (rowWritten f s) (nextRow (rowWritten f s)) := nextRow_rowFrame h
  exact
    { frame with
      subUnit := fun hf => (frame.subUnit hf).trans (if_neg hf)
      lanes := fun ha hp => (frame.lanes ha hp).trans (by
        cases f
        case avg => exact absurd rfl ha
        case paeth => exact absurd rfl hp
        all_goals rfl)
      mem := fun a hout => (frame.mem a hout).trans (read_writeBytes_outside _ _ _ _ (by
        simp only [State.inRow] at hout
        simp only [rowBytes_length]
        omega)) }

/-- NONE changes neither data memory nor the datapath registers (R120). -/
theorem nextRow_unharmed_mem {s : State} (h : s.rowUnharmed) : (nextRow s).mem = s.mem := by
  rw [nextRow_unharmed h]
  split <;> rfl

/-- The record of E_MEM in an operation that no hazard struck (R188). -/
theorem raiseMem_regs {s : State} (h : s.opHazard = false) : (raiseMem s).regs = s.regs.complete .eMem s.r 0 :=
  congrArg State.regs (endOperation_noHazard .eMem s.r 0 (s := s.drawRegion.drawDatapath) h)

/-- Settles O29: an answered row is in `RowFrame`, any other ends in E_MEM or stops past the data space. -/
theorem filterFrame : Obligations.FilterFrame := by
  refine ⟨fun f s e => exec_fault, fun f s hf hl ha => ?_, fun f s t hu hs => ?_⟩
  · rw [exec_of_ne_none hf]
    exact reconstructRow_outside f hl ha
  by_cases hok : s.rowOk f
  · rw [exec_ok hok] at hs
    obtain rfl := Host.Outcome.next.inj hs
    refine .inl ⟨hok, ?_⟩
    split
    · exact ⟨nextRow_rowFrame hu, fun _ => ⟨nextRow_unharmed_mem hu, nextRow_dp s⟩⟩
    · next hf => exact ⟨rowWritten_rowFrame f hu, fun h => absurd h hf⟩
  · rcases exec_cases f s with ⟨h, _⟩ | ⟨_, e⟩ | ⟨_, e⟩
    · exact absurd h hok
    · obtain rfl := Host.Outcome.next.inj (hs.symm.trans e)
      have frame := raiseMem_frame s
      exact .inr ⟨hok, frame.cfg, raiseMem_r s, frame.hazard, frame.errors, frame.resp, frame.inputs,
        raiseMem_phase s, frame.snapshot, frame.irqEn, raiseMem_regs, fun a => raiseMem_read_outside s⟩
    · cases hs.symm.trans e

end Sys2Proof.Machine
end

section
/-! What a step does not read: an Engine step neither the live configuration registers (R38) nor the datapath
registers (R43), and no step the latter. -/

namespace Sys2Proof.Machine

/-! ### Exchanging what the Engine does not read -/

/-- The state with other contents of the live configuration registers and of the datapath registers. -/
def State.withUnread (c : Cfg) (d : Datapath) (s : State) : State :=
  { s with regs := s.regs.withConfig c, dp := d }

/-- A meaning that does the same whatever the live configuration and datapath registers hold: it leaves the
former alone, and of all else only the datapath registers may come out different. -/
def IgnoresUnread (f : State → Host.Outcome State Fault Refusal) : Prop :=
  ∀ (s t : State) (c : Cfg) (d : Datapath), f s = .next t →
    ∃ d', f (s.withUnread c d) = .next (t.withUnread c d') ∧ (d = s.dp → d' = t.dp)

section
variable (c : Cfg) (d : Datapath) (s : State)

@[simp] theorem withUnread_phase : (s.withUnread c d).phase = s.phase := rfl
@[simp] theorem withUnread_r : (s.withUnread c d).r = s.r := rfl
@[simp] theorem withUnread_cfg : (s.withUnread c d).cfg = s.cfg := rfl
@[simp] theorem withUnread_mem : (s.withUnread c d).mem = s.mem := rfl
@[simp] theorem withUnread_errors : (s.withUnread c d).errors = s.errors := rfl
@[simp] theorem withUnread_dp : (s.withUnread c d).dp = d := rfl
@[simp] theorem withUnread_upReads (f : Instr) : upReads f (s.withUnread c d) = upReads f s := rfl
@[simp] theorem withUnread_portRead (a : Nat) : (s.withUnread c d).portRead a = s.portRead a := rfl

@[simp] theorem withUnread_portReads (a n : Nat) : (s.withUnread c d).portReads a n = s.portReads a n := by
  induction n generalizing a with
  | zero => rfl
  | succ n ih => simp only [State.portReads, withUnread_portRead, ih]

theorem endOperation_withUnread (code : ErrCode) (row : Word) (tag : Byte) :
    endOperation code row tag (s.withUnread c d) = (endOperation code row tag s).withUnread c d := by
  rcases endOperation_cases code row tag s with ⟨h, e⟩ | ⟨h, e⟩ <;> rw [e]
  · exact endOperation_noHazard _ _ _ h
  · exact if_pos h

/-- E_MEM draws the datapath registers, whatever they held (log 12). -/
theorem raiseMem_withUnread : raiseMem (s.withUnread c d) = (raiseMem s).withUnread c (raiseMem s).dp := by
  rw [show (raiseMem s).dp = s.drawRegion.drawDatapath.dp from endOperation_dp ..]
  exact endOperation_withUnread c _ s.drawRegion.drawDatapath .eMem s.r 0

theorem checkStep_withUnread : checkStep (s.withUnread c d) = (checkStep s).withUnread c d := by
  simp only [checkStep, endOperation_withUnread, withUnread_cfg]
  split
  · rfl
  · split <;> rfl

theorem nextTag_withUnread : nextTag (s.withUnread c d) = (nextTag s).withUnread c d := by
  rcases nextTag_cases s with ⟨h, e⟩ | ⟨h, e⟩ <;> rw [e]
  · exact if_neg h
  · exact if_pos h

theorem checkStep_dp : (checkStep s).dp = s.dp := by
  rcases checkStep_cases s with ⟨_, e⟩ | ⟨_, _, e⟩ | ⟨_, _, e⟩ <;> simp [e]

theorem nextTag_dp : (nextTag s).dp = s.dp := by
  rcases nextTag_cases s with ⟨_, e⟩ | ⟨_, e⟩ <;> rw [e]

theorem nextRow_withUnread : nextRow (s.withUnread c d) = (nextRow s).withUnread c d := by
  rcases nextRow_cases s with ⟨h, e⟩ | ⟨h, e⟩ <;> rw [e]
  · exact if_neg h
  · exact (if_pos h).trans (endOperation_withUnread c d { s with r := s.r + 1 } _ _ _)

end

/-! ### The Engine's meanings do not read it -/

/-- What answers a next state of its own accord ignores what it passes through. -/
theorem ignoresUnread_next {g : State → State}
    (hg : ∀ c d s, g (s.withUnread c d) = (g s).withUnread c d) (hdp : ∀ s, (g s).dp = s.dp) :
    IgnoresUnread fun s => .next (g s) := by
  intro s t c d h
  obtain rfl := Host.Outcome.next.inj h
  exact ⟨d, congrArg _ (hg c d s), fun hd => hd.trans (hdp s).symm⟩

theorem portFailure_ignoresUnread (e : PortFail) : IgnoresUnread (portFailure e) := by
  intro s t c d h
  cases e with
  | errorResponse =>
    obtain rfl := Host.Outcome.next.inj h
    exact ⟨_, congrArg _ (raiseMem_withUnread c d s), fun _ => rfl⟩
  | outside => cases h

theorem endOperation_ignoresUnread (tag : Byte) :
    IgnoresUnread fun s => .next (endOperation .eTag s.r tag s) :=
  ignoresUnread_next (fun c d s => endOperation_withUnread c d s _ _ _) fun _ => endOperation_dp ..

theorem reconstructRow_ignoresUnread (f : Instr) : IgnoresUnread (reconstructRow f) := by
  intro s t c d h
  unfold reconstructRow at h ⊢
  rw [withUnread_cfg, withUnread_r, withUnread_portReads, withUnread_portReads, withUnread_upReads,
    withUnread_errors, withUnread_mem, withUnread_dp]
  split at h
  · exact portFailure_ignoresUnread _ s t c d h
  · split at h
    · exact portFailure_ignoresUnread _ s t c d h
    · dsimp only at h ⊢
      split at h
      · exact portFailure_ignoresUnread _ s t c d h
      · obtain rfl := Host.Outcome.next.inj h
        refine ⟨_, congrArg _ (nextRow_withUnread c _ { s with mem := _, dp := s.dp.afterRow .. }), ?_⟩
        intro hd
        rw [hd, nextRow_dp]

theorem exec_ignoresUnread (f : Instr) : IgnoresUnread (exec f) := by
  by_cases hf : f = .none
  · subst hf
    exact ignoresUnread_next nextRow_withUnread nextRow_dp
  · rw [funext (exec_of_ne_none hf)]
    exact reconstructRow_ignoresUnread f

theorem scanStep_ignoresUnread : IgnoresUnread scanStep := by
  intro s t c d h
  simp only [scanStep, withUnread_portRead, withUnread_cfg, withUnread_r] at h ⊢
  split at h
  · exact portFailure_ignoresUnread _ s t c d h
  · split at h
    · exact endOperation_ignoresUnread _ s t c d h
    · exact ignoresUnread_next nextTag_withUnread nextTag_dp s t c d h

theorem runStep_ignoresUnread : IgnoresUnread runStep := by
  intro s t c d h
  simp only [runStep, withUnread_portRead, withUnread_cfg, withUnread_r] at h ⊢
  split at h
  · exact portFailure_ignoresUnread _ s t c d h
  · split at h
    · exact endOperation_ignoresUnread _ s t c d h
    · exact exec_ignoresUnread _ s t c d h

theorem engineStep_ignoresUnread : IgnoresUnread engineStep := by
  intro s t c d h
  unfold engineStep at h ⊢
  rw [withUnread_phase]
  cases hp : s.phase <;> simp only [hp] at h ⊢
  case idle => exact ignoresUnread_next (fun _ _ _ => rfl) (fun _ => rfl) s t c d h
  case check => exact ignoresUnread_next checkStep_withUnread checkStep_dp s t c d h
  case scan => exact scanStep_ignoresUnread s t c d h
  case run => exact runStep_ignoresUnread s t c d h

/-! ### The configuration registers (R38) -/

/-- A configuration write while busy is answered and ignored. -/
theorem hostRegWrite_config_busy {s : State} {off : Nat} (hb : s.busy = true)
    (ho : off ∈ [0x08, 0x0C, 0x10, 0x14, 0x18]) (w : Word) :
    hostRegWrite off .word w s = { s with resp := .ack } := by
  have offs : regAccessOk off .word = true ∧ off ≠ 0x00 ∧ off ≠ 0x04 := by
    simp only [List.mem_cons, List.not_mem_nil, or_false] at ho
    exact ⟨(regAccessOk_iff ..).2 ⟨rfl, by omega, by omega⟩, by omega, by omega⟩
  obtain ⟨hok, h0, h4⟩ := offs
  rcases hostRegWrite_cases off .word w s with
    ⟨hn, _⟩ | ⟨h, _⟩ | ⟨h, _⟩ | ⟨h, _⟩ | ⟨_, _, _, e⟩ | ⟨_, _, hi, _⟩
  · simp [hok] at hn
  · exact absurd h h0
  · exact absurd h h0
  · exact absurd h h4
  · exact e
  · simp [hb] at hi

/-- Settles O10: no Engine step reads or writes the live configuration registers. -/
theorem configurationHeldWhileBusy : Obligations.ConfigurationHeldWhileBusy := by
  refine ⟨fun s rest off w hi hb ho => ?_, fun s t c hs => ⟨(engineStep_frame hs).snapshot, ?_⟩⟩
  · rw [step_cons hi]
    exact congrArg Host.Outcome.next (hostRegWrite_config_busy (s := s.withInputs rest) hb ho w)
  · obtain ⟨d', he, hd⟩ := engineStep_ignoresUnread s t c s.dp hs
    rw [hd rfl] at he
    exact he

/-! ### The datapath registers (R43) -/

/-- The state with other contents of the datapath registers. -/
def State.withDatapath (d : Datapath) (s : State) : State := { s with dp := d }

/-- Exchanging the configuration registers for themselves exchanges the datapath registers only. -/
theorem withUnread_snapshot (d : Datapath) (s : State) :
    s.withUnread s.regs.snapshot d = s.withDatapath d := rfl

/-- An Engine step does the same to all else with other datapath registers. -/
theorem engineStep_withDatapath {s t : State} (d : Datapath) (h : engineStep s = .next t) :
    ∃ d', engineStep (s.withDatapath d) = .next (t.withDatapath d') := by
  obtain ⟨d', he, _⟩ := engineStep_ignoresUnread s t s.regs.snapshot d h
  refine ⟨d', ?_⟩
  rw [← withUnread_snapshot, ← withUnread_snapshot, (engineStep_frame h).snapshot]
  exact he

section
variable (d : Datapath) (s : State)

@[simp] theorem withDatapath_busy : (s.withDatapath d).busy = s.busy := rfl
@[simp] theorem withDatapath_busyRegion (a : Nat) : (s.withDatapath d).busyRegion a = s.busyRegion a := rfl
@[simp] theorem withDatapath_readIsOpen (a : Nat) : (s.withDatapath d).readIsOpen a = s.readIsOpen a := rfl

theorem hostRegRead_withDatapath (off : Nat) (size : AccessSize) :
    hostRegRead off size (s.withDatapath d) = (hostRegRead off size s).withDatapath d := by
  unfold hostRegRead
  split <;> rfl

theorem writeCtrl_withDatapath (w : Word) :
    writeCtrl w (s.withDatapath d) = (writeCtrl w s).withDatapath d := by
  unfold writeCtrl
  rw [withDatapath_busy]
  split <;> rfl

theorem hostRegWrite_withDatapath (off : Nat) (size : AccessSize) (w : Word) :
    hostRegWrite off size w (s.withDatapath d) = (hostRegWrite off size w s).withDatapath d := by
  unfold hostRegWrite writeReg
  split
  · split
    · rw [writeCtrl_withDatapath]
      rfl
    · rfl
    · rfl
  · rfl

theorem hostDataRead_withDatapath (a : Word) :
    hostDataRead a (s.withDatapath d) = (hostDataRead a s).withDatapath d := by
  unfold hostDataRead
  rw [withDatapath_readIsOpen]
  split <;> rfl

theorem hostDataWrite_withDatapath (a : Word) (b : Byte) :
    hostDataWrite a b (s.withDatapath d) = (hostDataWrite a b s).withDatapath d := by
  unfold hostDataWrite
  rw [withDatapath_busyRegion]
  split <;> rfl

theorem conflict_withDatapath : conflict (s.withDatapath d) = (conflict s).withDatapath d := by
  unfold conflict
  rw [withDatapath_busy]
  split <;> rfl

/-- A reset draws the datapath registers, whatever they held (log 12). -/
theorem resetEngine_withDatapath : resetEngine (s.withDatapath d) = resetEngine s := by
  unfold resetEngine
  rw [withDatapath_busy]
  split <;> rfl

end

/-- An event does the same to all else with other datapath registers. -/
theorem takeEvent_withDatapath {e : Event} {s t : State} (d : Datapath) (h : takeEvent e s = .next t) :
    ∃ d', takeEvent e (s.withDatapath d) = .next (t.withDatapath d') := by
  cases e <;> simp only [takeEvent, Host.Outcome.next.injEq] at h ⊢
  case engine => exact engineStep_withDatapath d h
  all_goals subst h
  case regRead off size => exact ⟨d, hostRegRead_withDatapath d s off size⟩
  case regWrite off size w => exact ⟨d, hostRegWrite_withDatapath d s off size w⟩
  case dataRead a => exact ⟨d, hostDataRead_withDatapath d s a⟩
  case dataWrite a b => exact ⟨d, hostDataWrite_withDatapath d s a b⟩
  case takeIrq => exact ⟨d, rfl⟩
  case portErrors errs => exact ⟨d, rfl⟩
  case regionConflict => exact ⟨d, conflict_withDatapath d s⟩
  case reset => exact ⟨_, resetEngine_withDatapath d s⟩

/-- Settles O34: the Engine's step and every event carry over to other datapath registers. -/
theorem datapathRegistersUnobservable : Obligations.DatapathRegistersUnobservable := by
  intro s t d h
  change ∃ d', step (s.withDatapath d) = .next (t.withDatapath d')
  cases hi : s.inputs with
  | nil =>
    rw [step_nil (s := s.withDatapath d) hi]
    exact engineStep_withDatapath d (step_nil hi ▸ h)
  | cons e rest =>
    rw [step_cons (s := s.withDatapath d) hi]
    exact takeEvent_withDatapath d (step_cons hi ▸ h)

end Sys2Proof.Machine
end

section
/-! Data memory: canonical memories are determined by their bytes (R60), which bytes an Engine step reads and
writes (R61, R67, R68), and when the host sees them (R75, R76). -/

namespace Sys2Proof.Machine

/-! ### Canonical memories (R60) -/

/-- The first entry of a canonical memory is what its address reads as, and no unlisted byte. -/
theorem read_head_ne_unlisted {lo : Nat} {c : Host.Cell} {m : Memory} (h : Memory.wfFrom lo (c :: m) = true) :
    Memory.read (c :: m) c.1 = c.2 ∧ c.2 ≠ Config.unlistedByte :=
  ⟨if_pos rfl, ((wfFrom_cons ..).1 h).2.2.1⟩

/-- A canonical memory lists nothing below the first entry of one that reads alike. -/
theorem head_le_of_read_eq {lo lo' : Nat} {c c' : Host.Cell} {m m' : Memory}
    (h : Memory.wfFrom lo (c :: m) = true) (h' : Memory.wfFrom lo' (c' :: m') = true)
    (hr : ∀ a, Memory.read (c :: m) a = Memory.read (c' :: m') a) : c.1 ≤ c'.1 := by
  obtain ⟨hv, hne⟩ := read_head_ne_unlisted h'
  obtain ⟨_, hrest⟩ := (wfFrom_cons ..).1 h
  by_contra hlt
  have below : Memory.read (c :: m) c'.1 = Config.unlistedByte :=
    read_below ((wfFrom_cons c.1 ..).2 ⟨Nat.le_refl _, hrest⟩) (Nat.lt_of_not_le hlt)
  exact hne (by rw [← hv, ← hr, below])

/-- Canonical memories that read alike behind the same first entry read alike without it. -/
theorem read_tail_eq {k : Nat} {v : Byte} {m m' : Memory} (h : Memory.wfFrom (k + 1) m = true)
    (h' : Memory.wfFrom (k + 1) m' = true)
    (hr : ∀ a, Memory.read ((k, v) :: m) a = Memory.read ((k, v) :: m') a) (a : Nat) : m.read a = m'.read a := by
  by_cases hk : k = a
  · rw [read_below h (by omega), read_below h' (by omega)]
  · simpa only [Memory.read, if_neg hk] using hr a

theorem eq_of_wfFrom_of_read_eq {lo : Nat} {m m' : Memory} (h : Memory.wfFrom lo m = true)
    (h' : Memory.wfFrom lo m' = true) (hr : ∀ a, m.read a = m'.read a) : m = m' := by
  induction m generalizing lo m' with
  | nil =>
    cases m' with
    | nil => rfl
    | cons c' m' =>
      obtain ⟨hv, hne⟩ := read_head_ne_unlisted h'
      exact absurd (hv.symm.trans (hr c'.1).symm) hne
  | cons c m ih =>
    cases m' with
    | nil =>
      obtain ⟨hv, hne⟩ := read_head_ne_unlisted h
      exact absurd (hv.symm.trans (hr c.1)) hne
    | cons c' m' =>
      have hk : c.1 = c'.1 :=
        Nat.le_antisymm (head_le_of_read_eq h h' hr) (head_le_of_read_eq h' h fun a => (hr a).symm)
      have hv : c.2 = c'.2 := by
        rw [← (read_head_ne_unlisted h).1, ← (read_head_ne_unlisted h').1, ← hk]
        exact hr c.1
      obtain rfl : c = c' := Prod.ext hk hv
      obtain ⟨_, _, _, hm⟩ := (wfFrom_cons ..).1 h
      obtain ⟨_, _, _, hm'⟩ := (wfFrom_cons ..).1 h'
      rw [ih hm hm' (read_tail_eq hm hm' hr)]

/-- Settles O59: the first entries agree, for each address reads unlisted below the first; then the rests do. -/
theorem memoryCanonicalUnique : Obligations.MemoryCanonicalUnique := fun _ _ => eq_of_wfFrom_of_read_eq

/-! ### The rows of a region (R61, R184) -/

/-- Each byte of a row of the operation is a byte of its region. -/
theorem rowByte_in_region {c : Cfg} {r i : Nat} (hr : r < c.height.toNat) (hi : i < c.bpl.toNat) :
    c.region.has (c.rowBase r + i) = true := by
  have hmul : (r + 1) * c.bpl.toNat ≤ c.height.toNat * c.bpl.toNat := Nat.mul_le_mul_right _ hr
  rw [Nat.succ_mul] at hmul
  rw [region_has_iff]
  simp only [Cfg.rowBase, Cfg.region]
  omega

/-- The tag of a checked row is a byte of the region. -/
theorem tag_in_region {c : Cfg} {r : Nat} (hg : c.geomOk = true) (hr : r < c.height.toNat) :
    c.region.has (c.rowBase r) = true := by
  obtain ⟨_, hbpl, _⟩ := (geomOk_iff c).1 hg
  exact rowByte_in_region (i := 0) hr (by omega)

theorem payload_in_region {c : Cfg} {r i : Nat} (hr : r < c.height.toNat) (hi : i < c.payloadLen) :
    c.region.has (c.payloadAt r + i) = true := by
  simp only [Cfg.payloadLen] at hi
  have := rowByte_in_region (c := c) (i := 1 + i) hr (by omega)
  rwa [← Nat.add_assoc] at this

/-- The payload of the row RUN works on lies in the region. -/
theorem inRow_in_region {s : State} {a : Nat} (hr : s.r.toNat < s.cfg.height.toNat) (ha : s.inRow a) :
    s.cfg.region.has a = true := by
  obtain ⟨hlo, hhi⟩ := ha
  have := payload_in_region (i := a - s.cfg.payloadAt s.r.toNat) hr (by omega)
  rwa [Nat.add_sub_cancel' hlo] at this

/-- No tag is a payload byte of a row. -/
theorem tag_not_inRow (s : State) (r : Nat) : ¬ s.inRow (s.cfg.rowBase r) := by
  rintro ⟨hlo, hhi⟩
  simp only [Cfg.payloadAt, Cfg.payloadLen, Cfg.rowBase] at hlo hhi
  rcases Nat.lt_or_ge s.r.toNat r with h | h
  · have := Nat.mul_le_mul_right s.cfg.bpl.toNat h
    rw [Nat.succ_mul] at this
    omega
  · have := Nat.mul_le_mul_right s.cfg.bpl.toNat h
    omega

/-! ### What an Engine step writes (R61, R68) -/

/-- Writing a row leaves every other byte alone. -/
theorem rowWritten_read_outside (f : Instr) {s : State} {a : Nat} (ha : ¬ s.inRow a) :
    (rowWritten f s).mem.read a = s.mem.read a := by
  refine read_writeBytes_outside _ _ _ _ ?_
  simp only [State.inRow] at ha
  simp only [rowBytes_length]
  omega

theorem nextTag_mem (s : State) : (nextTag s).mem = s.mem := by
  rcases nextTag_cases s with ⟨_, e⟩ | ⟨_, e⟩ <;> rw [e]

theorem checkStep_mem {s : State} (h : s.opHazard = false) : (checkStep s).mem = s.mem := by
  rcases checkStep_cases s with ⟨_, e⟩ | ⟨_, _, e⟩ | ⟨_, _, e⟩ <;> rw [e]
  · rw [endOperation_noHazard _ _ _ h, finish_mem]
  · rw [endOperation_noHazard _ _ _ h, finish_mem]

theorem checkStep_read_outside (s : State) {a : Nat} (ha : s.cfg.region.has a = false) :
    (checkStep s).mem.read a = s.mem.read a := by
  rcases checkStep_cases s with ⟨_, e⟩ | ⟨_, _, e⟩ | ⟨_, _, e⟩ <;> rw [e]
  · exact endOperation_read_outside _ _ _ s ha
  · exact endOperation_read_outside _ _ _ s ha

/-- Settles O32: the draws are the region's, and the row RUN writes lies in it. -/
theorem engineLeavesOutsideAlone : Obligations.EngineLeavesOutsideAlone := by
  intro s t hinv hs a ha
  rcases engineStep_cases hs with
    ⟨_, rfl⟩ | ⟨_, rfl⟩ | ⟨_, rfl⟩ | ⟨b, _, _, _, rfl⟩ | ⟨b, _, _, _, rfl⟩ | ⟨b, hp, _, _, _, rfl⟩
  · rfl
  · exact checkStep_read_outside s ha
  · exact raiseMem_read_outside s ha
  · exact endOperation_read_outside _ _ _ s ha
  · rw [nextTag_mem]
  · split
    · exact nextRow_read_outside s ha
    · obtain ⟨_, _, hr⟩ := hinv.checkedRow (.inr hp)
      have hout : ¬ s.inRow a := fun h => by simp [inRow_in_region hr h] at ha
      rw [nextRow_read_outside _ (by simpa using ha), rowWritten_read_outside _ hout]

/-- A tag that selects a filter other than NONE is not 0 (R92). -/
theorem tag_pos_of_filterOf_ne_none {b : Byte} (h : filterOf b ≠ .none) : 1 ≤ b.toNat := by
  by_contra h0
  obtain rfl : b = 0 := BitVec.eq_of_toNat_eq (by simpa using h0)
  exact h rfl

/-- A byte that an Engine step changes, no hazard and no E_MEM about, is a payload byte of the row RUN works on,
under a tag of 1 to 4 (R68). -/
theorem engineStep_changed {s t : State} (hz : s.opHazard = false) (hs : engineStep s = .next t)
    (hmem : t.regs.errCode ≠ .eMem) {a : Nat} (ha : t.mem.read a ≠ s.mem.read a) :
    s.phase = .run ∧ s.inRow a ∧ 1 ≤ (s.mem.tag s.cfg s.r.toNat).toNat ∧
      (s.mem.tag s.cfg s.r.toNat).toNat ≤ 4 := by
  rcases engineStep_cases hs with
    ⟨_, rfl⟩ | ⟨_, rfl⟩ | ⟨_, rfl⟩ | ⟨b, _, _, _, rfl⟩ | ⟨b, _, _, _, rfl⟩ | ⟨b, hp, hb, h5, _, rfl⟩
  · exact absurd rfl ha
  · exact absurd (by rw [checkStep_mem hz]) ha
  · exact absurd (by rw [raiseMem_regs hz, complete_errCode]) hmem
  · exact absurd (by rw [endOperation_noHazard _ _ _ hz, finish_mem]) ha
  · exact absurd (by rw [nextTag_mem]) ha
  · obtain ⟨_, _, rfl⟩ := (portRead_ok_iff ..).1 hb
    split at ha
    · exact absurd (by rw [nextRow_mem hz]) ha
    · next hf =>
      rw [nextRow_mem (by simpa using hz)] at ha
      exact ⟨hp, not_not.1 fun h => ha (rowWritten_read_outside _ h), tag_pos_of_filterOf_ne_none hf,
        Nat.le_of_lt_succ h5⟩

/-- Settles O31: a changed byte is a payload byte of row `eng.r`, and no tag is one. -/
theorem engineWritesOnlyItsRow : Obligations.EngineWritesOnlyItsRow := by
  intro s t _ hz hs hmem
  refine ⟨fun a => engineStep_changed hz hs hmem, fun _ r _ => ?_⟩
  by_contra hne
  obtain ⟨_, hrow, _⟩ := engineStep_changed hz hs hmem hne
  exact tag_not_inRow s r hrow

/-! ### What an Engine step reads (R61, R67, R70) -/

/-- A row inside the data space that is not answered in full ends the operation with E_MEM (R188). -/
theorem exec_of_not_rowOk {f : Instr} {s : State} (h : ¬ s.rowOk f)
    (hfit : s.cfg.payloadAt s.r.toNat + s.cfg.payloadLen ≤ Config.dataSpace) :
    exec f s = .next (raiseMem s) := by
  rcases exec_cases f s with ⟨hok, _⟩ | ⟨_, e⟩ | ⟨_, e⟩
  · exact absurd hok h
  · exact e
  · obtain ⟨_, _, hlt⟩ := exec_fault e
    omega

/-- The same byte written to two memories that agree on a region leaves them in agreement. -/
theorem write_agreeOn {g : Region} {m m' : Memory} (hm : m.wf = true) (hm' : m'.wf = true)
    (h : agreeOn g m m') (a : Nat) (b : Byte) : agreeOn g (m.write a b) (m'.write a b) := by
  intro x hx
  by_cases hxa : x = a
  · rw [hxa, read_write_same hm, read_write_same hm']
  · rw [read_write_other _ _ hxa, read_write_other _ _ hxa, h x hx]

theorem writeBytes_agreeOn {g : Region} {m m' : Memory} (hm : m.wf = true) (hm' : m'.wf = true)
    (h : agreeOn g m m') (a : Nat) (bs : List Byte) (hfit : a + bs.length ≤ Config.dataSpace) :
    agreeOn g (m.writeBytes a bs) (m'.writeBytes a bs) := by
  induction bs generalizing m m' a with
  | nil => exact h
  | cons b bs ih =>
    simp only [List.length_cons] at hfit
    have ha : a < Config.dataSpace := by omega
    exact ih (wf_write hm ha b) (wf_write hm' ha b) (write_agreeOn hm hm' h a b) _ (by omega)

/-- Two states that an Engine step cannot tell apart: they differ in data memory only (`sameButMem`), in canonical
memories that agree on the operation's region. -/
structure RegionAlike (s s' : State) : Prop where
  same : s' = { s with mem := s'.mem }
  wf : s.mem.wf = true
  wf' : s'.mem.wf = true
  agree : agreeOn s.cfg.region s.mem s'.mem

theorem eq_withMem_of_eq {s s' : State} {m : Memory} (h : s' = { s with mem := m }) :
    s' = { s with mem := s'.mem } := by
  subst h
  rfl

/-- Two answers of a meaning that are alike: next states that are, or the same stop. -/
inductive AnswersAlike : Host.Outcome State Fault Refusal → Host.Outcome State Fault Refusal → Prop where
  | next {t t' : State} (h : RegionAlike t t') : AnswersAlike (.next t) (.next t')
  | fault (e : Fault) : AnswersAlike (.fault e) (.fault e)

theorem AnswersAlike.of_next {o o' : Host.Outcome State Fault Refusal} (h : AnswersAlike o o') {t : State}
    (ho : o = .next t) : ∃ t', o' = .next t' ∧ RegionAlike t t' := by
  subst ho
  cases h with
  | next h => exact ⟨_, rfl, h⟩

namespace RegionAlike

variable {s s' : State} (h : RegionAlike s s')
include h

theorem phase : s'.phase = s.phase := by rw [h.same]
theorem r : s'.r = s.r := by rw [h.same]
theorem cfg : s'.cfg = s.cfg := by rw [h.same]
theorem opHazard : s'.opHazard = s.opHazard := by rw [h.same]
theorem dp : s'.dp = s.dp := by rw [h.same]
theorem draws : s'.draws = s.draws := by rw [h.same]
theorem errors : s'.errors = s.errors := by rw [h.same]

/-- Whether a row's accesses are answered does not depend on data memory (R244). -/
theorem rowOk_iff (f : Instr) : s'.rowOk f ↔ s.rowOk f := by
  simp only [State.rowOk, State.readsOk, State.writesOk, h.cfg, h.r, h.errors]

theorem portRead {a : Nat} (ha : s.cfg.region.has a = true) : s'.portRead a = s.portRead a := by
  simp only [State.portRead, h.errors, h.agree a ha]

theorem payload {r : Nat} (hr : r < s.cfg.height.toNat) :
    s'.mem.payload s.cfg r = s.mem.payload s.cfg r :=
  payload_congr fun _ hi => (h.agree _ (payload_in_region hr hi)).symm

theorem upBytes (f : Instr) (hr : s.r.toNat < s.cfg.height.toNat) : upBytes f s' = upBytes f s := by
  simp only [Machine.upBytes, h.r, h.cfg, h.payload (r := s.r.toNat - 1) (by omega)]

theorem rowBytes (f : Instr) (hr : s.r.toNat < s.cfg.height.toNat) : rowBytes f s' = rowBytes f s := by
  simp only [Machine.rowBytes, h.upBytes f hr, h.r, h.cfg, h.payload hr]

/-- Row `eng.r` is the last of the one exactly when it is of the other. -/
theorem lastRow_iff : s'.r + 1 = s'.cfg.height ↔ s.r + 1 = s.cfg.height := by rw [h.r, h.cfg]

/-- Both draw the same bytes (log 5). -/
theorem drawRegion : RegionAlike s.drawRegion s'.drawRegion where
  same := eq_withMem_of_eq (congrArg State.drawRegion h.same)
  wf := drawRegion_wf h.wf
  wf' := drawRegion_wf h.wf'
  agree := by
    rw [drawRegion_mem, drawRegion_mem, h.cfg, h.draws]
    exact writeBytes_agreeOn h.wf h.wf' h.agree _ _ (by simpa using region_fits s.cfg)

theorem endOperation (code : ErrCode) (row : Word) (tag : Byte) :
    RegionAlike (endOperation code row tag s) (endOperation code row tag s') := by
  unfold Machine.endOperation
  rw [h.opHazard]
  split
  · exact { h.drawRegion with same := eq_withMem_of_eq (congrArg finishHazard h.same :) }
  · exact { h with same := congrArg (finish code row tag) h.same }

theorem raiseMem : RegionAlike (raiseMem s) (raiseMem s') := by
  have drawn : RegionAlike s.drawRegion.drawDatapath s'.drawRegion.drawDatapath :=
    { h.drawRegion with same := congrArg State.drawDatapath h.drawRegion.same }
  unfold Machine.raiseMem
  rw [h.r]
  exact drawn.endOperation _ _ _

/-- At row 0 of another phase (R182, R183). -/
theorem firstRow (p : Phase) : RegionAlike { s with phase := p, r := 0 } { s' with phase := p, r := 0 } :=
  { h with same := congrArg (fun u : State => { u with phase := p, r := 0 }) h.same }

/-- At the next row. -/
theorem succRow : RegionAlike { s with r := s.r + 1 } { s' with r := s'.r + 1 } :=
  { h with same := congrArg (fun u : State => { u with r := u.r + 1 }) h.same }

theorem nextRow : RegionAlike (nextRow s) (nextRow s') := by
  simp only [Machine.nextRow, h.lastRow_iff]
  split
  · exact h.succRow.endOperation _ _ _
  · exact h.succRow

theorem nextTag : RegionAlike (nextTag s) (nextTag s') := by
  simp only [Machine.nextTag, h.lastRow_iff]
  split
  · exact h.firstRow .run
  · exact h.succRow

theorem checkStep : RegionAlike (checkStep s) (checkStep s') := by
  unfold Machine.checkStep
  rw [congrArg Cfg.bppOk h.cfg, congrArg Cfg.geomOk h.cfg]
  split
  · exact h.endOperation _ _ _
  · split
    · exact h.endOperation _ _ _
    · exact h.firstRow .scan

/-- Both reconstruct the same row, so its circuit leaves the same in the datapath registers (R43). -/
theorem rowWritten_same (f : Instr) (hr : s.r.toNat < s.cfg.height.toNat) :
    rowWritten f s' = { rowWritten f s with mem := (rowWritten f s').mem } := by
  have registers : (rowWritten f s').dp = (rowWritten f s).dp := by
    simp only [rowWritten, h.upBytes f hr, h.cfg, h.r, h.dp, h.payload hr]
  calc rowWritten f s'
    _ = { s' with mem := (rowWritten f s').mem, dp := (rowWritten f s').dp } := rfl
    _ = { s' with mem := (rowWritten f s').mem, dp := (rowWritten f s).dp } := by rw [registers]
    _ = { rowWritten f s with mem := (rowWritten f s').mem } :=
      congrArg (fun u : State => { u with mem := (rowWritten f s').mem, dp := (rowWritten f s).dp }) h.same

/-- Both store the reconstructed row at the same place. -/
theorem rowWritten (f : Instr) (hg : s.cfg.geomOk = true) (hr : s.r.toNat < s.cfg.height.toNat) :
    RegionAlike (rowWritten f s) (rowWritten f s') := by
  have fits : s.cfg.payloadAt s.r.toNat + (Machine.rowBytes f s).length ≤ Config.dataSpace := by
    simpa using row_fits hg hr
  have stored : (Machine.rowWritten f s').mem =
      s'.mem.writeBytes (s.cfg.payloadAt s.r.toNat) (Machine.rowBytes f s) := by
    rw [rowWritten_mem, h.rowBytes f hr, h.cfg, h.r]
  exact
    { same := h.rowWritten_same f hr
      wf := wf_writeBytes h.wf _ _ fits
      wf' := stored ▸ wf_writeBytes h.wf' _ _ fits
      agree := stored ▸ writeBytes_agreeOn h.wf h.wf' h.agree _ _ fits }

/-- Both answer a filter alike, in a state of RUN (R185). -/
theorem exec (f : Instr) (hg : s.cfg.geomOk = true) (hr : s.r.toNat < s.cfg.height.toNat) :
    AnswersAlike (exec f s) (exec f s') := by
  have fits := row_fits hg hr
  by_cases hok : s.rowOk f
  · rw [exec_ok hok, exec_ok ((h.rowOk_iff f).2 hok)]
    split
    · exact .next h.nextRow
    · exact .next (h.rowWritten f hg hr).nextRow
  · rw [exec_of_not_rowOk hok fits, exec_of_not_rowOk (mt (h.rowOk_iff f).1 hok) (by rwa [h.cfg, h.r])]
    exact .next h.raiseMem

theorem portFailure (e : PortFail) : AnswersAlike (portFailure e s) (portFailure e s') := by
  cases e with
  | errorResponse => exact .next h.raiseMem
  | outside => exact .fault _

theorem scanStep (hg : s.cfg.geomOk = true) (hr : s.r.toNat < s.cfg.height.toNat) :
    AnswersAlike (scanStep s) (scanStep s') := by
  unfold Machine.scanStep
  rw [h.cfg, h.r, h.portRead (tag_in_region hg hr)]
  split
  · exact h.portFailure _
  · split
    · exact .next (h.endOperation _ _ _)
    · exact .next h.nextTag

theorem runStep (hg : s.cfg.geomOk = true) (hr : s.r.toNat < s.cfg.height.toNat) :
    AnswersAlike (runStep s) (runStep s') := by
  unfold Machine.runStep
  rw [h.cfg, h.r, h.portRead (tag_in_region hg hr)]
  split
  · exact h.portFailure _
  · split
    · exact .next (h.endOperation _ _ _)
    · exact h.exec _ hg hr

theorem engineStep (hinv : s.Inv) : AnswersAlike (engineStep s) (engineStep s') := by
  unfold Machine.engineStep
  rw [h.phase]
  cases hp : s.phase with
  | idle => exact .next h
  | check => exact .next h.checkStep
  | scan =>
    obtain ⟨_, hg, hr⟩ := hinv.checkedRow (.inl hp)
    exact h.scanStep hg hr
  | run =>
    obtain ⟨_, hg, hr⟩ := hinv.checkedRow (.inr hp)
    exact h.runStep hg hr

end RegionAlike

/-- Settles O33: the Engine reads tags and payloads of checked rows only, all of them bytes of the region, and what
it draws does not depend on data memory. -/
theorem engineReadsOnlyRegion : Obligations.EngineReadsOnlyRegion := by
  intro s s' t hinv hinv' hsame hagree hs
  have alike : RegionAlike s s' := ⟨hsame, hinv.memWf, hinv'.memWf, hagree⟩
  obtain ⟨t', hs', ht⟩ := (alike.engineStep hinv).of_next hs
  exact ⟨t', hs', ht.same, (engineStep_frame hs).cfg ▸ ht.agree⟩

/-! ### When the host sees the results (R75, R76) -/

/-- A host read of an open byte is a free value (R290, R294). -/
theorem step_dataRead_open {s : State} {a : Word} {rest : List Event} (hi : s.inputs = .dataRead a :: rest)
    (ho : s.readIsOpen a.toNat = true) :
    step s = .next
      { s with inputs := rest, resp := .data (Config.freeByte s.draws), draws := s.draws + 1 } := by
  rw [step_cons hi]
  exact congrArg Host.Outcome.next (if_pos ho)

/-- Any other is the byte of data memory (R219). -/
theorem step_dataRead_closed {s : State} {a : Word} {rest : List Event} (hi : s.inputs = .dataRead a :: rest)
    (ho : s.readIsOpen a.toNat = false) :
    step s = .next { s with inputs := rest, resp := .data (s.mem.read a.toNat) } := by
  rw [step_cons hi]
  exact congrArg Host.Outcome.next (if_neg (ne_true_of_eq_false ho))

/-- At either acquire point of R75 the host observes the DONE of the last operation, and gets a response. -/
theorem step_observes {s : State} {e : Event} {rest : List Event}
    (he : e = readStatus ∨ (e = .takeIrq ∧ s.regs.irqEn = true)) (hi : s.inputs = e :: rest)
    (hd : s.regs.done = true) :
    ∃ v, step s = .next { (s.withInputs rest).observeDone true with resp := v } := by
  rw [step_cons hi]
  rcases he with rfl | ⟨rfl, hen⟩
  · have seen : hostRegRead 0x04 .word (s.withInputs rest) =
        { (s.withInputs rest).observeDone s.regs.done with
          resp := .word ((s.withInputs rest).regValue 0x04) } := rfl
    exact ⟨_, congrArg Host.Outcome.next (hd ▸ seen)⟩
  · have hirq : (s.withInputs rest).irq = true := by simp [State.irq, hen, hd]
    have seen : hostTakeIrq (s.withInputs rest) =
        { (s.withInputs rest).observeDone (s.withInputs rest).irq with
          resp := .irqLevel (s.withInputs rest).irq } := rfl
    exact ⟨_, congrArg Host.Outcome.next (hirq ▸ seen)⟩

/-- Settles O15: an Engine step leaves the running operation's region among the open bytes, and observing DONE
leaves open exactly the bytes of earlier regions outside it. -/
theorem resultsVisibleAfterDone : Obligations.ResultsVisibleAfterDone := by
  refine ⟨fun s rest a hi ho => step_dataRead_open hi ((readIsOpen_iff ..).2 (.inr ho)),
    fun s t rest a hinv hb ha hs hi => ?_, fun s rest a e he hi hb hd => ?_⟩
  · have frame := engineStep_frame hs
    have ho := hinv.busyUnseen hb a.toNat a.isLt ha
    exact step_dataRead_open hi ((readIsOpen_iff ..).2 (.inr (frame.unseen ▸ ho)))
  · obtain ⟨v, hu⟩ := step_observes he hi hd
    have isOpen_iff := observeDone_readIsOpen_iff (s := s.withInputs (.dataRead a :: rest)) hb a.toNat
    refine ⟨fun h => ?_, fun hout hun => ?_⟩
    · have closed := Bool.eq_false_iff.2 fun ho => by
        obtain ⟨⟨g, hg, hin⟩, hout⟩ := isOpen_iff.1 ho
        rcases h with h | h
        · simp [h] at hout
        · simp [h g hg] at hin
      exact ⟨_, (run_succ hu 1).trans (run_succ (step_dataRead_closed rfl closed) 0), rfl⟩
    · exact ⟨_, (run_succ hu 1).trans (run_succ (step_dataRead_open rfl (isOpen_iff.2 ⟨hun, hout⟩)) 0), rfl⟩

end Sys2Proof.Machine
end

section
/-! The encoding: a filter's tag and an image decode to what was encoded (R90, R94, R97), and the register writes
that the RUN shorthand stands for start the operation it names (R98). -/

namespace Sys2Proof.Machine

/-! ### The decoder reads what the encoder writes (R90, R94, R96) -/

/-- The decoder reads every filter back from its tag (R92, R94). -/
@[simp] theorem decodeTag_encodeTag (i : Instr) : decodeTag (encodeTag i) = .ok i := by
  cases i <;> rfl

/-- Settles O57: the legal tags are those the encoder gives the five filters, and every byte of 5 or more is
illegal. -/
theorem tagDecoding : Obligations.TagDecoding :=
  ⟨decodeTag_encodeTag .none, decodeTag_encodeTag .sub, decodeTag_encodeTag .up, decodeTag_encodeTag .avg,
    decodeTag_encodeTag .paeth, fun t => (decodeTag_error_iff t).2⟩

/-- A scanline of `bpl` bytes decodes to itself, and the bytes after it stay (R90). -/
theorem decodeScanline_encodeScanline {bpl : Nat} {x : Scanline} (hx : x.payload.length + 1 = bpl)
    (rest : List Byte) : decodeScanline bpl (encodeScanline x ++ rest) = .ok (x, rest) := by
  subst hx
  simp [decodeScanline, encodeScanline]

/-- Scanlines of one length, one after the other, decode to themselves: each is cut off where the next begins
(R90, R96). -/
theorem decodeImage_encodeImage {bpl : Nat} {xs : List Scanline} (h : ∀ x ∈ xs, x.payload.length + 1 = bpl)
    (rest : List Byte) : decodeImage bpl xs.length (encodeImage xs ++ rest) = .ok (xs, rest) := by
  induction xs with
  | nil => rfl
  | cons x xs ih =>
    obtain ⟨hx, hxs⟩ := List.forall_mem_cons.1 h
    rw [encodeImage, List.append_assoc, List.length_cons, decodeImage, decodeScanline_encodeScanline hx]
    simp only [ih hxs]

/-- Every scanline of a well-formed image has the image's length (R96). -/
theorem payload_length_of_imageWf {bpp bpl : Nat} {xs : List Scanline} (h : imageWf bpp bpl xs = true) :
    ∀ x ∈ xs, x.payload.length + 1 = bpl := by
  intro x hx
  simp only [imageWf, Bool.and_eq_true, List.all_eq_true] at h
  obtain ⟨⟨_, hall⟩, _⟩ := h
  have hwf := hall x hx
  simp only [Scanline.wf, Bool.and_eq_true, beq_iff_eq] at hwf
  obtain ⟨⟨⟨_, hlen⟩, _⟩, _⟩ := hwf
  exact hlen

/-- Settles O58, by induction on the scanlines: that they all have one length is what the decoder needs of a
well-formed image. -/
theorem imageDecodeEncode : Obligations.ImageDecodeEncode :=
  fun _ _ _ rest h => decodeImage_encodeImage (payload_length_of_imageWf h) rest

/-! ### The RUN shorthand (R98) -/

/-- A configuration write while idle is stored (R217). -/
theorem hostRegWrite_config_idle {s : State} {off : Nat} (hb : s.busy = false)
    (ho : off ∈ [0x08, 0x0C, 0x10, 0x14, 0x18]) (w : Word) :
    hostRegWrite off .word w s = { s with regs := s.regs.configure off w, resp := .ack } := by
  simp only [List.mem_cons, List.not_mem_nil, or_false] at ho
  have hok : regAccessOk off .word = true := (regAccessOk_iff ..).2 ⟨rfl, by omega, by omega⟩
  rcases hostRegWrite_cases off .word w s with
    ⟨hn, _⟩ | ⟨h, _⟩ | ⟨h, _⟩ | ⟨h, _⟩ | ⟨_, _, hbusy, _⟩ | ⟨_, _, _, e⟩
  · simp [hok] at hn
  · omega
  · omega
  · omega
  · simp [hb] at hbusy
  · exact e

/-- It is one step of the machine (R212). -/
theorem step_config_idle {s : State} {off : Nat} {w : Word} {rest : List Event} (hb : s.busy = false)
    (ho : off ∈ [0x08, 0x0C, 0x10, 0x14, 0x18]) (hi : s.inputs = .regWrite off .word w :: rest) :
    step s = .next { s with regs := s.regs.configure off w, inputs := rest, resp := .ack } := by
  rw [step_cons hi]
  exact congrArg Host.Outcome.next (hostRegWrite_config_idle (s := s.withInputs rest) hb ho w)

/-- A CTRL write that sets bit 0 while idle starts an operation (R213). -/
theorem hostRegWrite_start {s : State} {w : Word} (hb : s.busy = false) (hw : w.getLsbD 0 = true) :
    hostRegWrite 0x00 .word w s = { startOperation (w.getLsbD 1) s with resp := .ack } := by
  have hok : regAccessOk 0x00 .word = true := rfl
  simp [hostRegWrite, writeReg, writeCtrl, hok, hb, hw]

/-- Register writes as the host asks for them. -/
def regWrites (ws : List (Nat × Word)) : List Event := ws.map fun p => .regWrite p.1 .word p.2

/-- Configuration writes in an idle state are stored one after the other, and the machine stays idle (R217). -/
theorem run_configures {ws : List (Nat × Word)} (hw : ∀ p ∈ ws, p.1 ∈ [0x08, 0x0C, 0x10, 0x14, 0x18])
    {s : State} {rest : List Event} (hb : s.busy = false) (hi : s.inputs = regWrites ws ++ rest) :
    ∃ t : State, Host.Core.run core ws.length s = .next t ∧ t.busy = false ∧ t.inputs = rest ∧ t.mem = s.mem ∧
      t.regs = ws.foldl (fun g p => g.configure p.1 p.2) s.regs := by
  induction ws generalizing s with
  | nil => exact ⟨s, rfl, hb, hi, rfl, rfl⟩
  | cons p ws ih =>
    obtain ⟨hp, hws⟩ := List.forall_mem_cons.1 hw
    rw [List.length_cons, run_succ (step_config_idle hb hp hi)]
    exact ih hws hb rfl

/-- The CTRL word of the RUN shorthand: START in bit 0, IRQ_EN in bit 1 (R98). -/
def runCtrlWord (irqEn : Bool) : Word := if irqEn then 3 else 1

@[simp] theorem runCtrlWord_start (irqEn : Bool) : (runCtrlWord irqEn).getLsbD 0 = true := by cases irqEn <;> rfl

@[simp] theorem runCtrlWord_irqEn (irqEn : Bool) : (runCtrlWord irqEn).getLsbD 1 = irqEn := by cases irqEn <;> rfl

/-- Settles O56: five configuration writes, and the CTRL write that takes the snapshot of what they stored. -/
theorem runShorthandStartsOperation : Obligations.RunShorthandStartsOperation := by
  intro s base len height bpl bpp irqEn rest hb hi
  obtain ⟨t, hrun, htb, hti, htm, htr⟩ := run_configures
    (ws := [(0x08, base), (0x0C, len), (0x10, height), (0x14, bpl), (0x18, bpp)])
    (rest := .regWrite 0x00 .word (runCtrlWord irqEn) :: rest) (by simp) hb hi
  have started : step t = .next { startOperation irqEn (t.withInputs rest) with resp := .ack } := by
    have accepted := hostRegWrite_start (s := t.withInputs rest) htb (runCtrlWord_start irqEn)
    rw [runCtrlWord_irqEn] at accepted
    exact (step_cons hti).trans (congrArg Host.Outcome.next accepted)
  have snapshot : t.regs.snapshot =
      { base := base, len := len, height := height, bpl := bpl, bpp := bpp.extractLsb' 0 4 } := by
    rw [htr]
    simp [Regs.configure, Regs.snapshot, BitVec.setWidth_eq_extractLsb']
  exact ⟨_, (run_add hrun 1).trans (run_succ started 0), rfl, rfl, rfl, snapshot, rfl, htm⟩

end Sys2Proof.Machine
end

section
/-! The row recurrence (R110) as an equation for each byte, what follows from it lane by lane (R116, R117, R121),
and what it undoes: the forward filter of V-W3. The pixel-serial lanes (R126) compute the same row. -/

namespace Sys2Proof.Machine

/-! ### The recurrence, byte by byte (R111, R112) -/

/-- Operands are alike where the neighbours are: the left byte of the row, and the bytes above and above left. -/
theorem operands_congr {i bpp : Nat} {first : Bool} {up up' raw raw' : List Byte}
    (left : bpp ≤ i → raw.getD (i - bpp) 0 = raw'.getD (i - bpp) 0) (above : up.getD i 0 = up'.getD i 0)
    (aboveLeft : bpp ≤ i → up.getD (i - bpp) 0 = up'.getD (i - bpp) 0) :
    operands i bpp first up raw = operands i bpp first up' raw' := by
  unfold operands
  rw [above]
  by_cases hi : bpp ≤ i
  · rw [left hi, aboveLeft hi]
  · simp only [if_neg hi]

/-- The operands of a byte are bytes before it: what follows in the row does not matter. -/
theorem operands_append {bpp : Nat} (hb : 0 < bpp) (first : Bool) (up raw tail : List Byte) :
    operands raw.length bpp first up (raw ++ tail) = operands raw.length bpp first up raw :=
  operands_congr (fun hi => List.getD_append _ _ _ _ (by omega)) rfl fun _ => rfl

/-- Each byte that the recurrence appends is its coded byte plus the prediction of its operands in the finished
row. -/
theorem defilterFrom_getD {f : Instr} {bpp : Nat} (hb : 0 < bpp) {first : Bool} {up raw cod : List Byte} {i : Nat}
    (hlo : raw.length ≤ i) (hhi : i < raw.length + cod.length) :
    (defilterFrom f bpp first up raw cod).getD i 0 =
      cod.getD (i - raw.length) 0 + select f (operands i bpp first up (defilterFrom f bpp first up raw cod)) := by
  induction cod generalizing raw with
  | nil => simp only [List.length_nil] at hhi; omega
  | cons x cod ih =>
    rw [defilterFrom]
    simp only [List.length_cons] at hhi
    rcases Nat.eq_or_lt_of_le hlo with rfl | hlt
    · obtain ⟨tail, e, _⟩ :=
        defilterFrom_prefix f bpp first up (raw ++ [x + select f (operands raw.length bpp first up raw)]) cod
      rw [e, List.append_assoc, operands_append hb]
      simp
    · rw [ih (by simpa using hlt) (by simp only [List.length_append, List.length_singleton]; omega)]
      simp only [List.length_append, List.length_singleton]
      rw [show i - raw.length = i - (raw.length + 1) + 1 by omega, List.getD_cons_succ]

/-- A row obeys the recurrence of a coded row: of the same length, each byte its coded byte plus the prediction of
its operands, modulo 256 (R111, R112). -/
structure ObeysRecurrence (f : Instr) (bpp : Nat) (first : Bool) (up cod raw : List Byte) : Prop where
  length_eq : raw.length = cod.length
  getD_eq : ∀ i < cod.length, raw.getD i 0 = cod.getD i 0 + select f (operands i bpp first up raw)

theorem defilterRow_obeys (f : Instr) {bpp : Nat} (hb : 0 < bpp) (first : Bool) (up cod : List Byte) :
    ObeysRecurrence f bpp first up cod (defilterRow f bpp first up cod) where
  length_eq := defilterRow_length ..
  getD_eq i hi := defilterFrom_getD hb (raw := []) (Nat.zero_le i) (by simpa using hi)

/-- Induction along a lane: a byte follows from its left neighbour (R116). -/
theorem lane_induction {bpp : Nat} (hb : 0 < bpp) {P : Nat → Prop} (byte : ∀ i, (bpp ≤ i → P (i - bpp)) → P i)
    (i : Nat) : P i := by
  induction i using Nat.strong_induction_on with
  | h i ih => exact byte i fun hi => ih (i - bpp) (by omega)

/-- Byte lists of one length are equal when they hold the same bytes. -/
theorem eq_of_getD_eq {xs ys : List Byte} (hl : xs.length = ys.length)
    (h : ∀ i < xs.length, xs.getD i 0 = ys.getD i 0) : xs = ys := by
  refine List.ext_getElem hl fun i hx hy => ?_
  rw [← List.getD_eq_getElem xs 0 hx, ← List.getD_eq_getElem ys 0 hy]
  exact h i hx

/-- One row obeys the recurrence: the defiltered one. -/
theorem ObeysRecurrence.eq_defilterRow {f : Instr} {bpp : Nat} {first : Bool} {up cod raw : List Byte}
    (hb : 0 < bpp) (h : ObeysRecurrence f bpp first up cod raw) : defilterRow f bpp first up cod = raw := by
  have row := defilterRow_obeys f hb first up cod
  refine eq_of_getD_eq (row.length_eq.trans h.length_eq.symm) fun i hi => ?_
  rw [row.length_eq] at hi
  induction i using lane_induction hb with
  | byte i left =>
    rw [row.getD_eq i hi, h.getD_eq i hi, operands_congr (fun hle => left hle (by omega)) rfl fun _ => rfl]

/-- The exact sum of two bytes halved is a byte (R145). -/
theorem avgPred_toNat (a b : Byte) : (avgPred a b).toNat = (a.toNat + b.toNat) / 2 := by
  have ha := a.isLt
  have hb := b.isLt
  simp only [avgPred, BitVec.toNat_ofNat]
  omega

/-- Settles O35: the recurrence on bytes, read as numbers modulo 256. -/
theorem rowRecurrence : Obligations.RowRecurrence := by
  intro f bpp first up cod hb
  have row := defilterRow_obeys f hb first up cod
  refine ⟨row.length_eq, fun i hi => ?_⟩
  dsimp only
  rw [row.getD_eq i hi, BitVec.toNat_add]
  cases f
  case none => rfl
  case sub => rfl
  case up => rfl
  case avg => simp only [select, operands, avgPred_toNat]
  case paeth => cases first <;> simp [select, operands]

/-! ### Lanes (R116, R117, R121) -/

/-- The sum of a lane's coded bytes up to byte `i` (R121). -/
def laneSum (bpp : Nat) (cod : List Byte) (i : Nat) : Byte :=
  ((List.range (i / bpp + 1)).map fun m => cod.getD (i - m * bpp) 0).sum

/-- It grows by the byte's own coded byte. -/
theorem laneSum_eq {bpp : Nat} (hb : 0 < bpp) (cod : List Byte) (i : Nat) :
    laneSum bpp cod i = cod.getD i 0 + if bpp ≤ i then laneSum bpp cod (i - bpp) else 0 := by
  unfold laneSum
  rw [List.range_succ_eq_map, List.map_cons, List.sum_cons, Nat.zero_mul, Nat.sub_zero, List.map_map]
  by_cases hi : bpp ≤ i
  · have count : i / bpp = (i - bpp) / bpp + 1 := Nat.div_eq_sub_div hb hi
    rw [if_pos hi, count]
    refine congrArg (cod.getD i 0 + List.sum ·) (List.map_congr_left fun m _ => ?_)
    simp only [Function.comp, Nat.succ_mul, Nat.sub_sub, Nat.add_comm bpp]
  · rw [if_neg hi, Nat.div_eq_of_lt (Nat.lt_of_not_le hi)]
    rfl

/-- Settles O36, by induction along the lane. -/
theorem subIsLanePrefixSum : Obligations.SubIsLanePrefixSum := by
  intro bpp first up cod hb i hi
  change _ = laneSum bpp cod i
  induction i using lane_induction hb with
  | byte i left =>
    rw [(defilterRow_obeys .sub hb first up cod).getD_eq i hi, laneSum_eq hb]
    simp only [select, operands]
    by_cases hle : bpp ≤ i
    · rw [if_pos hle, if_pos hle, left hle (by omega)]
    · rw [if_neg hle, if_neg hle]

/-- Settles O37, by induction along the lane: the operands of a byte are bytes of its lane at or before it. -/
theorem lanesIndependent : Obligations.LanesIndependent := by
  intro f bpp first up up' cod cod' i hb hi hl agree
  induction i using lane_induction hb with
  | byte i left =>
    obtain ⟨coded, above⟩ := agree i (Nat.le_refl i) rfl
    have lane : bpp ≤ i → (i - bpp) % bpp = i % bpp := fun hle => (Nat.mod_eq_sub_mod hle).symm
    rw [(defilterRow_obeys f hb first up cod).getD_eq i hi,
      (defilterRow_obeys f hb first up' cod').getD_eq i (by omega), coded]
    rw [operands_congr
      (fun hle => left hle (by omega) fun j hj hm => agree j (by omega) (hm.trans (lane hle)))
      above fun hle => (agree (i - bpp) (Nat.sub_le ..) (lane hle)).2]

/-- Without a row above Paeth predicts the left byte (R144). -/
theorem paeth_zero_zero (a : Byte) : paeth a 0 0 = a := by
  simp [paeth, absDiff]

/-- Without a row above the average is half the left byte (R117). -/
theorem avgPred_zero (a : Byte) : avgPred a 0 = a >>> 1 := by
  apply BitVec.eq_of_toNat_eq
  rw [avgPred_toNat, BitVec.toNat_ushiftRight, Nat.shiftRight_eq_div_pow]
  rfl

/-- A filter that predicts 0 on each byte gives the coded bytes. -/
theorem defilterRow_eq_coded {f : Instr} {bpp : Nat} {first : Bool} {up cod : List Byte} (hb : 0 < bpp)
    (h : ∀ i, select f (operands i bpp first up cod) = 0) : defilterRow f bpp first up cod = cod :=
  ObeysRecurrence.eq_defilterRow hb ⟨rfl, fun i _ => by rw [h i]; exact (BitVec.add_zero _).symm⟩

/-- Settles O38: on row 0 up and up-left are 0. -/
theorem firstRowFilters : Obligations.FirstRowFilters := by
  intro bpp up cod hb
  refine ⟨defilterRow_eq_coded hb fun _ => rfl, defilterRow_eq_coded hb fun _ => rfl, ?_, fun i hi => ?_⟩
  · have sub := defilterRow_obeys .sub hb true up cod
    refine ObeysRecurrence.eq_defilterRow hb ⟨sub.length_eq, fun i hi => ?_⟩
    rw [sub.getD_eq i hi]
    exact congrArg (cod.getD i 0 + ·) (paeth_zero_zero _).symm
  · rw [(defilterRow_obeys .avg hb true up cod).getD_eq i hi]
    exact congrArg (cod.getD i 0 + ·) (avgPred_zero _)

/-! ### The forward filter (V-W3) -/

/-- A legal stride is not 0 (R3). -/
theorem bpp_pos_of_mem {bpp : Nat} (h : bpp ∈ Config.bppSet) : 0 < bpp := by
  simp only [Config.bppSet, List.mem_cons, List.not_mem_nil, or_false] at h
  omega

theorem forwardRow_length (f : Instr) (bpp : Nat) (first : Bool) (up raw : List Byte) :
    (forwardRow f bpp first up raw).length = raw.length := by simp [forwardRow]

theorem forwardRow_getD {f : Instr} {bpp : Nat} {first : Bool} {up raw : List Byte} {i : Nat}
    (hi : i < raw.length) :
    (forwardRow f bpp first up raw).getD i 0 = raw.getD i 0 - select f (operands i bpp first up raw) := by
  simp [forwardRow, hi]

/-- Settles O47: the raw row obeys the recurrence of the forward-filtered one, and no other row does. -/
theorem forwardFilterRoundTrip : Obligations.ForwardFilterRoundTrip := by
  intro f bpp first up raw hb
  have length := forwardRow_length f bpp first up raw
  refine ObeysRecurrence.eq_defilterRow (bpp_pos_of_mem hb) ⟨length.symm, fun i hi => ?_⟩
  rw [forwardRow_getD (length ▸ hi), BitVec.sub_add_cancel]

/-! ### The pixel-serial lanes (R126) -/

/-- Before pixel `k` of a row the lanes have given the row's bytes before it, and hold its left and up-left
operands. -/
structure LanesBefore (bpp : Nat) (first : Bool) (up row : List Byte) (k : Nat) (st : LaneRun) : Prop where
  raw : st.raw = row.take (k * bpp)
  left : ∀ l < bpp, st.lanes.a.getD l 0 = (operands (k * bpp + l) bpp first up row).a
  upLeft : ∀ l < bpp, st.lanes.c.getD l 0 = (operands (k * bpp + l) bpp first up row).c

/-- The bytes of pixel `k` of a row. -/
def pixelBytes (bpp k : Nat) (row : List Byte) : List Byte :=
  (List.range bpp).map fun l => row.getD (k * bpp + l) 0

/-- A row up to a pixel, and the pixel. -/
theorem take_append_pixelBytes {bpp k : Nat} {row : List Byte} (h : (k + 1) * bpp ≤ row.length) :
    row.take (k * bpp) ++ pixelBytes bpp k row = row.take ((k + 1) * bpp) := by
  rw [Nat.succ_mul] at h ⊢
  rw [List.take_add]
  refine congrArg (row.take (k * bpp) ++ ·) (eq_of_getD_eq ?_ fun l hl => ?_)
  · simp only [pixelBytes, List.length_map, List.length_range, List.length_take, List.length_drop]
    omega
  · simp only [pixelBytes, List.length_map, List.length_range] at hl
    simp [pixelBytes, hl]

/-- With the operands in their registers the lanes give the pixel, and load the operands of the next (R126). -/
theorem pixelStep_lanesBefore {f : Instr} {bpp : Nat} (hb : 0 < bpp) {first : Bool} {up cod : List Byte}
    {k : Nat} {st : LaneRun} (hk : (k + 1) * bpp ≤ cod.length)
    (h : LanesBefore bpp first up (defilterRow f bpp first up cod) k st) :
    LanesBefore bpp first up (defilterRow f bpp first up cod) (k + 1) (pixelStep f bpp first up cod st k) := by
  have row := defilterRow_obeys f hb first up cod
  have pixel : ((List.range bpp).map fun l => cod.getD (k * bpp + l) 0 +
      select f { a := st.lanes.a.getD l 0, b := pixelUp bpp first up k l, c := st.lanes.c.getD l 0 }) =
      pixelBytes bpp k (defilterRow f bpp first up cod) := by
    refine List.map_congr_left fun l hl => ?_
    rw [List.mem_range] at hl
    rw [Nat.succ_mul] at hk
    rw [h.left l hl, h.upLeft l hl, row.getD_eq _ (by omega)]
    rfl
  have next : ∀ l, bpp ≤ (k + 1) * bpp + l ∧ (k + 1) * bpp + l - bpp = k * bpp + l := fun l => by
    rw [Nat.succ_mul]
    omega
  simp only [pixelStep, pixel]
  constructor
  · simp only [h.raw]
    exact take_append_pixelBytes (row.length_eq ▸ hk)
  · intro l hl
    obtain ⟨hle, hsub⟩ := next l
    simp [operands, hle, hsub, pixelBytes, hl]
  · intro l hl
    obtain ⟨hle, hsub⟩ := next l
    simp [operands, hle, hsub, pixelUp, hl]

/-- The lanes after `k` pixels, by induction on the pixels. -/
theorem pixelSerial_lanesBefore (f : Instr) {bpp : Nat} (hb : 0 < bpp) (first : Bool) (up cod : List Byte) {k : Nat}
    (hk : k * bpp ≤ cod.length) :
    LanesBefore bpp first up (defilterRow f bpp first up cod) k
      ((List.range k).foldl (pixelStep f bpp first up cod)
        { raw := [], lanes := { a := List.replicate bpp 0, c := List.replicate bpp 0 } }) := by
  induction k with
  | zero =>
    constructor
    · simp
    · intro l hl
      simp [operands, hl]
    · intro l hl
      simp [operands, hl]
  | succ k ih =>
    rw [List.range_succ, List.foldl_append]
    exact pixelStep_lanesBefore hb hk (ih (by rw [Nat.succ_mul] at hk; omega))

/-- Settles O46: after the last pixel the lanes have given the whole row, and hold what the operands of a further
pixel would be. -/
theorem pixelSerialEqualsReference : Obligations.PixelSerialEqualsReference := by
  intro f bpp first up cod _ hbpp hmod hpos
  have hb := bpp_pos_of_mem hbpp
  have whole : cod.length / bpp * bpp = cod.length := Nat.div_mul_cancel (Nat.dvd_of_mod_eq_zero hmod)
  have hle : bpp ≤ cod.length := Nat.le_of_dvd hpos (Nat.dvd_of_mod_eq_zero hmod)
  have last := pixelSerial_lanesBefore f hb first up cod (Nat.le_of_eq whole)
  have position : ∀ l, bpp ≤ cod.length + l ∧ cod.length + l - bpp = cod.length - bpp + l := fun l => by omega
  refine ⟨?_, fun l hl => ?_⟩
  · exact last.raw.trans (List.take_of_length_le (by simp [whole]))
  · obtain ⟨hin, hsub⟩ := position l
    have left := last.left l hl
    have upLeft := last.upLeft l hl
    rw [whole] at left upLeft
    simp only [operands, if_pos hin, hsub] at left upLeft
    exact ⟨left, upLeft⟩

end Sys2Proof.Machine
end

section
/-! The five filters on the row in data memory (R120 to R124): what the recurrence says of each payload byte that RUN
writes. -/

namespace Sys2Proof.Machine

theorem bpp_pos_of_bppOk {c : Cfg} (h : c.bppOk = true) : 0 < c.bpp.toNat :=
  bpp_pos_of_mem (by simpa [Cfg.bppOk] using h)

/-- Writes that are all acknowledged lie in the data space (R46). -/
theorem writesOk_fits {s : State} {a n : Nat} (h : s.writesOk a n) (hn : 0 < n) : a + n ≤ Config.dataSpace := by
  obtain ⟨hlast, _⟩ := h (n - 1) (by omega)
  omega

/-- Each payload byte of a written row is the byte that the recurrence gives. -/
theorem rowWritten_pixel {f : Instr} {s : State} (hwf : s.mem.wf = true)
    (hw : s.writesOk (s.cfg.payloadAt s.r.toNat) s.cfg.payloadLen) {i : Nat} (hi : i < s.cfg.payloadLen) :
    (rowWritten f s).mem.pixel s.cfg s.r.toNat i = (rowBytes f s).getD i 0 :=
  read_writeBytes_inside hwf _ _ _ (by simpa using writesOk_fits hw (by omega)) (by simpa using hi)

/-- The operands of payload byte `i` of row `eng.r` (R111): the left byte as a memory `m` holds it, the bytes above
as data memory does, 0 where missing. -/
def State.rowOperands (s : State) (m : Memory) (i : Nat) : Operands :=
  { a := if s.cfg.bpp.toNat ≤ i then m.pixel s.cfg s.r.toNat (i - s.cfg.bpp.toNat) else 0
    b := if s.r.toNat = 0 then 0 else s.mem.pixel s.cfg (s.r.toNat - 1) i
    c := if s.r.toNat ≠ 0 ∧ s.cfg.bpp.toNat ≤ i then
      s.mem.pixel s.cfg (s.r.toNat - 1) (i - s.cfg.bpp.toNat) else 0 }

/-- Below row 0 RUN reads the row above for a filter that uses it (R185). -/
theorem upBytes_getD {f : Instr} {s : State} (hf : readsUp f = true) (hr : s.r.toNat ≠ 0) {j : Nat}
    (hj : j < s.cfg.payloadLen) : (upBytes f s).getD j 0 = s.mem.pixel s.cfg (s.r.toNat - 1) j := by
  have above : upBytes f s = s.mem.payload s.cfg (s.r.toNat - 1) := if_pos ⟨hf, Nat.pos_of_ne_zero hr⟩
  rw [above, payload_getD _ _ _ _ hj, Memory.pixel]

/-- What a filter predicts from the bytes RUN reads is what it predicts from the operands in data memory: a filter
that does not read the row above does not use it (R113, R185). -/
theorem select_upBytes {f : Instr} {s : State} {m : Memory} {raw : List Byte} {i : Nat} (hi : i < s.cfg.payloadLen)
    (hleft : s.cfg.bpp.toNat ≤ i →
      raw.getD (i - s.cfg.bpp.toNat) 0 = m.pixel s.cfg s.r.toNat (i - s.cfg.bpp.toNat)) :
    select f (operands i s.cfg.bpp.toNat (decide (s.r.toNat = 0)) (upBytes f s) raw) =
      select f (s.rowOperands m i) := by
  have left : (operands i s.cfg.bpp.toNat (decide (s.r.toNat = 0)) (upBytes f s) raw).a =
      (s.rowOperands m i).a := by
    simp only [operands, State.rowOperands]
    split
    · next hle => exact hleft hle
    · rfl
  cases hf : readsUp f with
  | false =>
    cases f
    case none => rfl
    case sub => exact left
    all_goals cases hf
  | true =>
    refine congrArg (select f) ?_
    by_cases h0 : s.r.toNat = 0
    · simpa [operands, State.rowOperands, h0] using left
    · have above := upBytes_getD hf h0 hi
      have aboveLeft := upBytes_getD hf h0 (j := i - s.cfg.bpp.toNat) (by omega)
      simp only [operands, State.rowOperands, above, aboveLeft] at left ⊢
      rw [left]
      simp [h0]

/-- What a filter other than NONE does with a row whose accesses are answered: each payload byte is its coded byte
plus the prediction of its operands, modulo 256 (R112, R185). -/
theorem exec_row_result {f : Instr} (hf : f ≠ .none) {s : State} (hu : s.rowUnharmed) (hwf : s.mem.wf = true)
    (hb : s.cfg.bppOk = true) (hok : s.rowOk f) :
    ∃ t, exec f s = .next t ∧ RowFrame f s t ∧
      ∀ i < s.cfg.payloadLen,
        t.mem.pixel s.cfg s.r.toNat i = s.mem.pixel s.cfg s.r.toNat i + select f (s.rowOperands t.mem i) := by
  have exec_eq := exec_ok hok
  rw [if_neg hf] at exec_eq
  refine ⟨_, exec_eq, rowWritten_rowFrame f hu, fun i hi => ?_⟩
  obtain ⟨_, hw, _⟩ := hok hf
  have written : ∀ j < s.cfg.payloadLen,
      (nextRow (rowWritten f s)).mem.pixel s.cfg s.r.toNat j = (rowBytes f s).getD j 0 := fun j hj => by
    rw [nextRow_unharmed_mem (s := rowWritten f s) hu]
    exact rowWritten_pixel hwf hw hj
  have row := (defilterRow_obeys f (bpp_pos_of_bppOk hb) (decide (s.r.toNat = 0)) (upBytes f s)
    (s.mem.payload s.cfg s.r.toNat)).getD_eq i (by simpa using hi)
  rw [written i hi, rowBytes, row, payload_getD _ _ _ _ hi]
  exact congrArg (_ + ·) (select_upBytes hi fun _ => (written _ (by omega)).symm)

/-- Settles O24: NONE ends its RUN step, and does nothing before that. -/
theorem noneRowResult : Obligations.NoneRowResult :=
  fun s hu => ⟨_, exec_none s, nextRow_rowFrame hu, nextRow_unharmed_mem hu⟩

/-- Settles O25: SUB predicts the left byte. -/
theorem subRowResult : Obligations.SubRowResult :=
  fun _ => exec_row_result (f := .sub) nofun

/-- Settles O26: UP predicts the byte above. -/
theorem upRowResult : Obligations.UpRowResult :=
  fun _ => exec_row_result (f := .up) nofun

/-- Settles O27: AVG predicts half the exact sum of the left byte and the byte above. -/
theorem avgRowResult : Obligations.AvgRowResult := by
  intro s hu hwf hb hok
  obtain ⟨t, hexec, frame, pixel⟩ := exec_row_result (f := .avg) nofun hu hwf hb hok
  refine ⟨t, hexec, frame, fun i hi => ?_⟩
  rw [pixel i hi, BitVec.toNat_add, select, avgPred_toNat]
  simp only [State.rowOperands, apply_ite BitVec.toNat]
  rfl

/-- Settles O28: PAETH predicts Paeth of the three operands. -/
theorem paethRowResult : Obligations.PaethRowResult :=
  fun _ => exec_row_result (f := .paeth) nofun

end Sys2Proof.Machine
end

section
/-! An operation whose every tag is NONE (R127): CHECK accepts it, SCAN passes every row, and RUN passes every row
again. -/

namespace Sys2Proof.Machine

/-- Steps that each move on to the next row, and leave in `last` after the last row, reach `last` from row `r` in one
step for each row from `r` on (R183, R185). -/
theorem run_rows {s last : State}
    (row : ∀ r : Word, r.toNat < s.cfg.height.toNat →
      step { s with r := r } = .next (if r + 1 = s.cfg.height then last else { s with r := r + 1 }))
    {n : Nat} {r : Word} (hn : r.toNat + (n + 1) = s.cfg.height.toNat) :
    Host.Core.run core (n + 1) { s with r := r } = .next last := by
  have hrow := row r (by omega)
  induction n generalizing r with
  | zero =>
    rw [if_pos (by bv_omega)] at hrow
    exact run_succ hrow 0
  | succ n ih =>
    rw [if_neg (by bv_omega)] at hrow
    have hnext : (r + 1).toNat + (n + 1) = s.cfg.height.toNat := by bv_omega
    rw [run_succ hrow]
    exact ih hnext (row _ (by omega))

/-- From row 0, all rows of the operation. -/
theorem run_allRows {s last : State} (hpos : 1 ≤ s.cfg.height.toNat)
    (row : ∀ r : Word, r.toNat < s.cfg.height.toNat →
      step { s with r := r } = .next (if r + 1 = s.cfg.height then last else { s with r := r + 1 })) :
    Host.Core.run core s.cfg.height.toNat { s with r := 0 } = .next last := by
  obtain ⟨n, hn⟩ := Nat.exists_eq_add_of_le' hpos
  rw [hn]
  exact run_rows row (by simp [hn])

/-- The region of a checked geometry lies in the data space (R242). -/
theorem lt_dataSpace_of_region {c : Cfg} (hg : c.geomOk = true) {a : Nat} (ha : c.region.has a = true) :
    a < Config.dataSpace := by
  obtain ⟨_, _, _, _, hfit⟩ := (geomOk_iff c).1 hg
  obtain ⟨_, hhi⟩ := (region_has_iff ..).1 ha
  exact Nat.lt_of_lt_of_le hhi hfit

/-- Where the platform answers every access to the region, the tag of each row is read (R183, R242). -/
theorem portRead_tag {s : State} (hg : s.cfg.geomOk = true) (hok : s.regionOk) {r : Nat}
    (hr : r < s.cfg.height.toNat) : s.portRead (s.cfg.rowBase r) = .ok (s.mem.tag s.cfg r) := by
  have inRegion := tag_in_region hg hr
  exact (portRead_ok_iff ..).2 ⟨lt_dataSpace_of_region hg inRegion, (hok _ inRegion).1, rfl⟩

/-- CHECK of a legal stride and geometry goes on to SCAN (R182). -/
theorem step_check {s : State} (hi : s.inputs = []) (hp : s.phase = .check) (hb : s.cfg.bppOk = true)
    (hg : s.cfg.geomOk = true) : step s = .next { s with phase := .scan, r := 0 } := by
  simp [step_nil hi, engineStep, hp, checkStep, hb, hg]

/-- SCAN of a row with a legal tag (R183). -/
theorem step_scan_legal {s : State} (hi : s.inputs = []) (hp : s.phase = .scan) {b : Byte}
    (hb : s.portRead (s.cfg.rowBase s.r.toNat) = .ok b) (hlt : b.toNat < 5) : step s = .next (nextTag s) := by
  rcases decodeTag_cases b with ⟨_, hd⟩ | ⟨hge, _⟩
  · simp [step_nil hi, engineStep, hp, scanStep, hb, hd]
  · omega

/-- RUN of a row with a legal tag runs its filter (R185). -/
theorem step_run_legal {s : State} (hi : s.inputs = []) (hp : s.phase = .run) {b : Byte}
    (hb : s.portRead (s.cfg.rowBase s.r.toNat) = .ok b) (hlt : b.toNat < 5) :
    step s = exec (filterOf b) s := by
  rcases decodeTag_cases b with ⟨_, hd⟩ | ⟨hge, _⟩
  · simp [step_nil hi, engineStep, hp, runStep, hb, hd]
  · omega

/-- SCAN of an image whose tags are all legal takes one step a row and leaves RUN at row 0 (R183). -/
theorem run_scan {s : State} (hi : s.inputs = []) (hp : s.phase = .scan) (hg : s.cfg.geomOk = true)
    (hok : s.regionOk) (hlegal : s.mem.tagsLegal s.cfg) :
    Host.Core.run core s.cfg.height.toNat { s with r := 0 } = .next { s with phase := .run, r := 0 } :=
  run_allRows ((geomOk_iff _).1 hg).1 fun r hr =>
    step_scan_legal (s := { s with r := r }) hi hp (portRead_tag hg hok hr) (hlegal _ hr)

/-- RUN of an image whose tags are all NONE takes one step a row and completes the operation (R127, R185). -/
theorem run_noneRows {s : State} (hi : s.inputs = []) (hp : s.phase = .run) (hz : s.opHazard = false)
    (hg : s.cfg.geomOk = true) (hok : s.regionOk) (hnone : ∀ r < s.cfg.height.toNat, s.mem.tag s.cfg r = 0) :
    Host.Core.run core s.cfg.height.toNat { s with r := 0 } =
      .next (finish .eNone 0 0 { s with r := s.cfg.height }) := by
  refine run_allRows ((geomOk_iff _).1 hg).1 fun r hr => ?_
  have tag : s.portRead (s.cfg.rowBase r.toNat) = .ok 0 := hnone _ hr ▸ portRead_tag hg hok hr
  have step_eq : step { s with r := r } = .next (nextRow { s with r := r }) :=
    step_run_legal (s := { s with r := r }) hi hp tag (by decide)
  rw [step_eq, nextRow_unharmed (s := { s with r := r }) (.inl hz)]
  dsimp only
  split
  · next hlast => rw [← hlast]
  · rfl

/-- Settles O55: one step of CHECK, one of SCAN and one of RUN for each row, none of which writes. -/
theorem allNoneOperationChangesNothing : Obligations.AllNoneOperationChangesNothing := by
  rintro s ⟨hinv, hp, hi, hz⟩ hb hg hok hnone
  have check := run_succ (step_check hi hp hb hg) 0
  have legal : s.mem.tagsLegal s.cfg := fun r hr => by rw [hnone r hr]; decide
  have scan := run_scan (s := { s with phase := .scan }) hi rfl hg hok legal
  have run := run_noneRows (s := { s with phase := .run }) hi rfl hz hg hok hnone
  refine ⟨finish .eNone 0 0 { s with phase := .run, r := s.cfg.height }, ?_, rfl, rfl, rfl, rfl⟩
  rw [Nat.two_mul]
  exact (run_add check _).trans ((run_add scan _).trans run)

end Sys2Proof.Machine
end

section
/-! The Paeth predictor (R141 to R144): its distances to the linear estimate, and the thresholds at the thirds of
`[min a b, max a b]` that decide it. -/

namespace Sys2Proof.Machine

/-- The distance of `x` to the linear estimate `p = a + b - c` (R143). -/
def estimateDist (a b c x : Byte) : Nat := ((a.toNat : Int) + b.toNat - c.toNat - x.toNat).natAbs

theorem absDiff_up_upLeft (a b c : Byte) : absDiff b.toNat c.toNat = estimateDist a b c a :=
  congrArg Int.natAbs (by ring)

theorem absDiff_left_upLeft (a b c : Byte) : absDiff a.toNat c.toNat = estimateDist a b c b :=
  congrArg Int.natAbs (by ring)

theorem absDiff_sum_upLeft (a b c : Byte) :
    absDiff (a.toNat + b.toNat) (2 * c.toNat) = estimateDist a b c c :=
  congrArg Int.natAbs (by ring)

/-- R143: the distances of R141 are the distances to the estimate. -/
theorem paeth_eq_nearest (a b c : Byte) : paeth a b c =
    if estimateDist a b c a ≤ estimateDist a b c b ∧ estimateDist a b c a ≤ estimateDist a b c c then a
    else if estimateDist a b c b ≤ estimateDist a b c c then b
    else c := by
  rw [← absDiff_up_upLeft, ← absDiff_left_upLeft, ← absDiff_sum_upLeft]
  rfl

/-- Settles O39: the three branches of Paeth, each by its condition on the distances to the estimate. -/
theorem paethIsNearestOperand : Obligations.PaethIsNearestOperand := by
  intro a b c
  refine ⟨fun hab hac => ?_, fun hna hbc => ?_, fun hna hnb => ?_⟩
  · exact (paeth_eq_nearest a b c).trans (if_pos ⟨hab, hac⟩)
  · exact (paeth_eq_nearest a b c).trans ((if_neg hna).trans (if_pos hbc))
  · exact (paeth_eq_nearest a b c).trans ((if_neg hna).trans (if_neg hnb))

theorem minByte_toNat (a b : Byte) : (minByte a b).toNat = min a.toNat b.toNat :=
  apply_ite BitVec.toNat ..

theorem maxByte_toNat (a b : Byte) : (maxByte a b).toNat = max a.toNat b.toNat :=
  apply_ite BitVec.toNat ..

theorem minByte_le_maxByte (a b : Byte) : (minByte a b).toNat ≤ (maxByte a b).toNat := by
  rw [minByte_toNat, maxByte_toNat]
  exact min_le_max

/-- What decides Paeth (R146): it is the larger operand up to the lower third of `[min a b, max a b]`, the smaller
one from the upper third on, and `c` between. -/
theorem paeth_eq_thirds (a b c : Byte) : paeth a b c =
    if 3 * c.toNat ≤ 2 * (minByte a b).toNat + (maxByte a b).toNat then maxByte a b
    else if (minByte a b).toNat + 2 * (maxByte a b).toNat ≤ 3 * c.toNat then minByte a b
    else c := by
  have left : (b.toNat - c.toNat : Int).natAbs = estimateDist a b c a := absDiff_up_upLeft a b c
  have up : (a.toNat - c.toNat : Int).natAbs = estimateDist a b c b := absDiff_left_upLeft a b c
  have upLeft : (a.toNat + b.toNat - 2 * c.toNat : Int).natAbs = estimateDist a b c c := absDiff_sum_upLeft a b c
  rw [paeth_eq_nearest]
  apply BitVec.eq_of_toNat_eq
  simp only [apply_ite BitVec.toNat, minByte_toNat, maxByte_toNat]
  rcases Nat.le_total a.toNat b.toNat with hab | hba
  · rw [min_eq_left hab, max_eq_right hab]
    split_ifs <;> omega
  · rw [min_eq_right hba, max_eq_left hba]
    split_ifs <;> omega

theorem paeth_mem (a b c : Byte) : paeth a b c = a ∨ paeth a b c = b ∨ paeth a b c = c := by
  rw [paeth_eq_nearest]
  split_ifs <;> simp

theorem paeth_toNat_of_le_min {a b c : Byte} (h : c.toNat ≤ min a.toNat b.toNat) :
    (paeth a b c).toNat = max a.toNat b.toNat := by
  rw [← minByte_toNat] at h
  have hle := minByte_le_maxByte a b
  rw [paeth_eq_thirds, if_pos (by omega), maxByte_toNat]

/-- Where both thresholds hold the operands are equal, and the larger is the smaller. -/
theorem paeth_toNat_of_max_le {a b c : Byte} (h : max a.toNat b.toNat ≤ c.toNat) :
    (paeth a b c).toNat = min a.toNat b.toNat := by
  rw [← maxByte_toNat] at h
  have hle := minByte_le_maxByte a b
  rw [paeth_eq_thirds, ← minByte_toNat]
  split_ifs <;> omega

/-- Settles O40: `Paeth(0, b, 0)` is the larger operand, `Paeth(x, x, x)` one of three equal ones. -/
theorem paethProperties : Obligations.PaethProperties := by
  intro a b c
  refine ⟨paeth_mem a b c, paeth_zero_zero a, ?_, ?_, paeth_toNat_of_le_min, paeth_toNat_of_max_le⟩
  · apply BitVec.eq_of_toNat_eq
    rw [paeth_toNat_of_le_min (Nat.zero_le _)]
    exact Nat.zero_max _
  · simpa using paeth_mem a a a

end Sys2Proof.Machine
end

section
/-! The circuits of the predictors (R145 to R147): the branch-free Paeth, its mask realisation, and the 8-bit Avg. -/

namespace Sys2Proof.Machine

/-- Settles O42: with `d` the floor of a third of the range, the two sign tests are the thresholds at the thirds. -/
theorem paethBranchFreeEqualsReference : Obligations.PaethBranchFreeEqualsReference := by
  intro a b c
  rw [paeth_eq_thirds]
  have hle := minByte_le_maxByte a b
  exact if_congr (by omega) rfl (if_congr (by omega) rfl rfl)

/-- All ones where `p` fails: the masks of R147. -/
def maskUnless (w : Nat) (p : Prop) [Decidable p] : BitVec w := if p then 0 else BitVec.allOnes w

/-- The arithmetic shift by 15 spreads the sign bit of a 16-bit value (R147). -/
theorem sshiftRight_sign (x : BitVec 16) : x.sshiftRight 15 = maskUnless 16 (0 ≤ x.toInt) := by
  ext i hi
  have sign : (x.sshiftRight 15)[i] = x.msb := by
    rw [BitVec.getElem_sshiftRight]
    split
    · next h =>
      obtain rfl : i = 0 := by omega
      exact (BitVec.msb_eq_getLsbD_last x).symm
    · rfl
  rw [sign, BitVec.msb_eq_toInt, maskUnless]
  by_cases h : 0 ≤ x.toInt
  · rw [if_pos h, decide_eq_false (not_lt.2 h)]
    exact (BitVec.getElem_zero hi).symm
  · rw [if_neg h, decide_eq_true (not_le.1 h), BitVec.getElem_allOnes]

/-- The selection of R147 takes `x` where `p` holds, else `y` where `q` holds, else `z`. -/
theorem maskSelect_eq {w : Nat} (x y z : BitVec w) (p q : Prop) [Decidable p] [Decidable q] :
    (~~~maskUnless w p &&& x) ||| (maskUnless w p &&& ~~~maskUnless w q &&& y) |||
      (maskUnless w p &&& maskUnless w q &&& z) = if p then x else if q then y else z := by
  by_cases hp : p
  · simp [maskUnless, hp]
  · by_cases hq : q <;> simp [maskUnless, hp, hq]

/-- The difference of widened bytes is exact (R147). -/
theorem widened_sub_toInt (x y : Byte) :
    (x.setWidth 16 - y.setWidth 16).toInt = (x.toNat - y.toNat : Int) := by
  have hx := x.isLt
  have hy := y.isLt
  rw [BitVec.toInt_eq_toNat_cond, BitVec.toNat_sub, BitVec.toNat_setWidth, BitVec.toNat_setWidth]
  omega

/-- The quotient `d` of R147 is that of R146. -/
theorem widened_third_toInt {mn mx : Byte} (h : mn.toNat ≤ mx.toNat) :
    ((mx.setWidth 16 - mn.setWidth 16) / 3).toInt = ((mx.toNat - mn.toNat) / 3 : Nat) := by
  have hmx := mx.isLt
  have range : (mx.setWidth 16 - mn.setWidth 16).toNat = mx.toNat - mn.toNat := by
    rw [BitVec.toNat_sub, BitVec.toNat_setWidth, BitVec.toNat_setWidth]
    omega
  have third : ((mx.setWidth 16 - mn.setWidth 16) / 3).toNat = (mx.toNat - mn.toNat) / 3 := by
    rw [BitVec.toNat_udiv, range]
    rfl
  rw [BitVec.toInt_eq_toNat_of_lt (by omega), third]

/-- `lo + d` is exact in 16 bits. -/
theorem lo_add_third_toInt {mn mx : Byte} (c : Byte) (h : mn.toNat ≤ mx.toNat) :
    (mn.setWidth 16 - c.setWidth 16 + (mx.setWidth 16 - mn.setWidth 16) / 3).toInt =
      (mn.toNat - c.toNat : Int) + ((mx.toNat - mn.toNat) / 3 : Nat) := by
  have hmx := mx.isLt
  have hc := c.isLt
  rw [BitVec.toInt_add, widened_sub_toInt, widened_third_toInt h]
  exact Int.bmod_eq_of_le_mul_two (by omega) (by omega)

/-- `d - hi` is exact in 16 bits. -/
theorem third_sub_hi_toInt {mn mx : Byte} (c : Byte) (h : mn.toNat ≤ mx.toNat) :
    ((mx.setWidth 16 - mn.setWidth 16) / 3 - (mx.setWidth 16 - c.setWidth 16)).toInt =
      ((mx.toNat - mn.toNat) / 3 : Nat) - (mx.toNat - c.toNat : Int) := by
  have hmx := mx.isLt
  have hc := c.isLt
  rw [BitVec.toInt_sub, widened_sub_toInt, widened_third_toInt h]
  exact Int.bmod_eq_of_le_mul_two (by omega) (by omega)

/-- The low byte of a widened byte (R147). -/
theorem low_widened (x : Byte) : (x.setWidth 16).setWidth 8 = x := by
  rw [BitVec.setWidth_setWidth_of_le x (by decide), BitVec.setWidth_eq]

/-- Settles O43: the masks select by the two sign tests of the branch-free form. -/
theorem paethMaskEqualsReference : Obligations.PaethMaskEqualsReference := by
  intro a b c
  have hle := minByte_le_maxByte a b
  rw [← paethBranchFreeEqualsReference a b c, paethMask, sshiftRight_sign, sshiftRight_sign, maskSelect_eq,
    lo_add_third_toInt c hle, third_sub_hi_toInt c hle,
    apply_ite (BitVec.setWidth 8), apply_ite (BitVec.setWidth 8), low_widened, low_widened, low_widened]
  rfl

/-- The sum of two numbers is the bits they share, counted twice, and those of one alone (R145). -/
theorem two_mul_and_add_xor (m n : Nat) : 2 * (m &&& n) + (m ^^^ n) = m + n := by
  induction m using Nat.strong_induction_on generalizing n with
  | h m ih =>
    rcases Nat.eq_zero_or_pos m with rfl | hm
    · simp
    · have half := ih (m / 2) (by omega) (n / 2)
      rw [← Nat.and_div_two, ← Nat.xor_div_two] at half
      have hand : (m &&& n) % 2 = 1 ↔ m % 2 = 1 ∧ n % 2 = 1 := Nat.and_mod_two_eq_one
      have hxor : (m ^^^ n) % 2 = (m + n) % 2 := Nat.xor_mod_two_eq
      omega

/-- The 8-bit form halves the sum: the shared bits count once, and the others half (R145). -/
theorem avgPred8_toNat (a b : Byte) : (avgPred8 a b).toNat = (a.toNat + b.toNat) / 2 := by
  have sum := two_mul_and_add_xor a.toNat b.toNat
  have ha := a.isLt
  have hb := b.isLt
  rw [avgPred8, BitVec.toNat_add, BitVec.toNat_and, BitVec.toNat_ushiftRight, BitVec.toNat_xor,
    Nat.shiftRight_eq_div_pow]
  omega

/-- Settles O41: both forms are half the exact sum. -/
theorem avgIsExactFloor : Obligations.AvgIsExactFloor := fun a b =>
  ⟨avgPred_toNat a b, BitVec.eq_of_toNat_eq ((avgPred8_toNat a b).trans (avgPred_toNat a b).symm)⟩

end Sys2Proof.Machine
end

section
/-! The Sub unit (R160 to R167): its doubling scan sums lanes (R165), and block after block it gives the reference row
(R166). -/

namespace Sys2Proof.Machine

/-! ### The doubling scan (R165) -/

/-- The sum of the `n` nearest elements at or before `j`, `k` apart (R165). -/
def windowSum (n k : Nat) (v : List Byte) (j : Nat) : Byte :=
  (((List.range n).filter fun m => decide (m * k ≤ j)).map fun m => v.getD (j - m * k) 0).sum

/-- A window is its nearest element and the window one shorter that begins `k` before it. -/
theorem windowSum_succ (n k : Nat) (v : List Byte) (j : Nat) :
    windowSum (n + 1) k v j = v.getD j 0 + if k ≤ j then windowSum n k v (j - k) else 0 := by
  unfold windowSum
  rw [List.range_succ_eq_map, List.filter_cons_of_pos (by simp), List.map_cons, List.sum_cons, Nat.zero_mul,
    Nat.sub_zero, List.filter_map, List.map_map]
  congr 1
  by_cases hk : k ≤ j
  · have inside : ∀ m : Nat, m.succ * k ≤ j ↔ m * k ≤ j - k := fun m => by rw [Nat.succ_mul]; omega
    have place : ∀ m : Nat, j - m.succ * k = j - k - m * k := fun m => by rw [Nat.succ_mul]; omega
    simp only [if_pos hk, Function.comp_def, inside, place]
  · have outside : ∀ m : Nat, ¬ m.succ * k ≤ j := fun m => by rw [Nat.succ_mul]; omega
    simp [hk, Function.comp_def, outside]

@[simp] theorem subShiftAdd_length (k : Nat) (v : List Byte) : (subShiftAdd k v).length = v.length := by
  simp [subShiftAdd]

theorem subShiftAdd_getD {k : Nat} {v : List Byte} {j : Nat} (hj : j < v.length) :
    (subShiftAdd k v).getD j 0 = v.getD j 0 + if k ≤ j then v.getD (j - k) 0 else 0 := by
  simp [subShiftAdd, hj]

/-- A window over shifted sums at twice the distance is one of twice as many elements, by induction on the window. -/
theorem windowSum_subShiftAdd (n k : Nat) {v : List Byte} {j : Nat} (hj : j < v.length) :
    windowSum n (2 * k) (subShiftAdd k v) j = windowSum (2 * n) k v j := by
  induction n generalizing j with
  | zero => rfl
  | succ n ih =>
    rw [windowSum_succ, subShiftAdd_getD hj, Nat.mul_succ, windowSum_succ, windowSum_succ, ih (by omega)]
    by_cases h2 : 2 * k ≤ j
    · rw [if_pos h2, if_pos (by omega : k ≤ j), if_pos (by omega : k ≤ j), if_pos (by omega : k ≤ j - k),
        Nat.sub_sub, ← Nat.two_mul, BitVec.add_assoc]
    · rw [if_neg h2, if_neg (by omega : ¬ k ≤ j - k)]
      simp

/-- `t` steps of the scan sum windows of `2^t` elements: each step doubles the window. -/
theorem subScanSteps_getD (t k : Nat) {v : List Byte} {j : Nat} (hj : j < v.length) :
    (subScanSteps t k v).getD j 0 = windowSum (2 ^ t) k v j := by
  induction t generalizing k v with
  | zero => simp [subScanSteps, windowSum]
  | succ t ih =>
    rw [subScanSteps, ih (2 * k) (by rwa [subShiftAdd_length]), windowSum_subShiftAdd _ _ hj, Nat.pow_succ']

/-- Fuel enough for `t` doublings makes the scan `t` steps, when the distance reaches the width after `t` of them. -/
theorem subScan_eq_steps {w fuel t k : Nat} (v : List Byte) (hfuel : t ≤ fuel) (hreach : w ≤ k * 2 ^ t)
    (hbelow : ∀ i < t, k * 2 ^ i < w) : subScan w fuel k v = subScanSteps t k v := by
  induction t generalizing fuel k v with
  | zero =>
    rw [Nat.pow_zero, Nat.mul_one] at hreach
    cases fuel with
    | zero => rfl
    | succ fuel => exact if_neg (Nat.not_lt.mpr hreach)
  | succ t ih =>
    obtain ⟨fuel, rfl⟩ := Nat.exists_eq_add_of_le' (Nat.zero_lt_of_lt hfuel)
    have twice : ∀ i, 2 * k * 2 ^ i = k * 2 ^ (i + 1) := fun i => by ring
    have first : k < w := by simpa using hbelow 0 t.succ_pos
    rw [subScan, if_pos first, subScanSteps]
    refine ih _ (by omega) (twice t ▸ hreach) fun i hi => ?_
    rw [twice]
    exact hbelow (i + 1) (by omega)

/-- A scan whose distances all stay below the width has no more steps than the width, so the unit's fuel suffices. -/
theorem steps_le_width {w bpp t : Nat} (hb : 0 < bpp) (hbelow : ∀ i < t, bpp * 2 ^ i < w) : t ≤ w := by
  cases t with
  | zero => exact Nat.zero_le w
  | succ t =>
    calc t + 1 ≤ 2 ^ t := Nat.lt_two_pow_self
      _ ≤ bpp * 2 ^ t := Nat.le_mul_of_pos_left _ hb
      _ ≤ w := Nat.le_of_lt (hbelow t t.lt_succ_self)

/-- Doubling reaches every width: there is a least number of steps T (R165). -/
theorem exists_least_steps {bpp : Nat} (hb : 0 < bpp) (w : Nat) :
    ∃ t, w ≤ bpp * 2 ^ t ∧ ∀ i < t, bpp * 2 ^ i < w := by
  have reached : ∃ t, w ≤ bpp * 2 ^ t :=
    ⟨w, Nat.le_of_lt (Nat.lt_of_lt_of_le Nat.lt_two_pow_self (Nat.le_mul_of_pos_left _ hb))⟩
  exact ⟨Nat.find reached, Nat.find_spec reached, fun i hi => Nat.lt_of_not_le (Nat.find_min reached hi)⟩

/-- A window of more elements than its lane has at or before `j` sums the lane. -/
theorem windowSum_eq_laneSum {n bpp : Nat} (hb : 0 < bpp) (v : List Byte) {j : Nat} (hj : j < bpp * n) :
    windowSum n bpp v j = laneSum bpp v j := by
  induction n generalizing j with
  | zero => omega
  | succ n ih =>
    rw [windowSum_succ, laneSum_eq hb]
    by_cases hle : bpp ≤ j
    · rw [if_pos hle, if_pos hle, ih (by rw [Nat.mul_succ] at hj; omega)]
    · rw [if_neg hle, if_neg hle]

/-- The finished scan sums each lane (R165). -/
theorem subScan_getD {w bpp : Nat} (hb : 0 < bpp) {v : List Byte} (hv : v.length ≤ w) {j : Nat} (hj : j < v.length) :
    (subScan w w bpp v).getD j 0 = laneSum bpp v j := by
  obtain ⟨t, hreach, hbelow⟩ := exists_least_steps hb w
  rw [subScan_eq_steps v (steps_le_width hb hbelow) hreach hbelow, subScanSteps_getD t bpp hj,
    windowSum_eq_laneSum hb v (by omega)]

/-- Settles O44: each step doubles the window, and the last window holds the lane. -/
theorem scanStepsSumLane : Obligations.ScanStepsSumLane :=
  ⟨fun bpp t _ _ _ hj => subScanSteps_getD t bpp hj,
    fun _ _ _ v hb hreach hbelow => subScan_eq_steps v (steps_le_width hb hbelow) hreach hbelow,
    fun _ _ _ _ hb hv hj => subScan_getD hb hv hj⟩

/-! ### The blocks of a row (R163, R164, R166) -/

@[simp] theorem subLoad_length (w s n : Nat) (cod : List Byte) : (subLoad w s n cod).length = w := by
  simp [subLoad]

theorem subLoad_getD {w s n : Nat} {cod : List Byte} {j : Nat} (hj : j < n) (hn : n ≤ w) :
    (subLoad w s n cod).getD j 0 = cod.getD (s + j) 0 := by
  simp [subLoad, hj, Nat.lt_of_lt_of_le hj hn]

/-- The carry holds the last `bpp` bytes of the row before the block (R164). -/
theorem subCarry_getD {bpp s l : Nat} {row : List Byte} (hl : l < bpp) (hs : 0 < s → bpp ≤ s) :
    (subCarry bpp s (row.take s)).getD l 0 = if 0 < s then row.getD (s - bpp + l) 0 else 0 := by
  have before : 0 < s → s - bpp + l < s := fun h => by have := hs h; omega
  by_cases h : 0 < s
  · simp [subCarry, hl, h, before h]
  · simp [subCarry, hl, h]

/-- A byte of the SUB row is the sum of its lane inside the block that starts at `s`, plus the lane's last byte before
the block: by induction along the lane (R166). -/
theorem subRow_eq_block_add_carry {bpp s n : Nat} (hb : 0 < bpp) {first : Bool} {up cod row block : List Byte}
    (h : ObeysRecurrence .sub bpp first up cod row) (hs : 0 < s → bpp ≤ s) (hn : s + n ≤ cod.length)
    (hblock : ∀ j < n, block.getD j 0 = cod.getD (s + j) 0) {j : Nat} (hj : j < n) :
    row.getD (s + j) 0 = laneSum bpp block j + if 0 < s then row.getD (s - bpp + j % bpp) 0 else 0 := by
  induction j using lane_induction hb with
  | byte j left =>
    have byte : row.getD (s + j) 0 =
        block.getD j 0 + if bpp ≤ s + j then row.getD (s + j - bpp) 0 else 0 := by
      rw [h.getD_eq _ (by omega), hblock j hj]
      rfl
    rw [byte, laneSum_eq hb, BitVec.add_assoc]
    congr 1
    by_cases hle : bpp ≤ j
    · rw [if_pos (by omega : bpp ≤ s + j), if_pos hle, Nat.add_sub_assoc hle, left hle (by omega),
        Nat.mod_eq_sub_mod hle]
    · rw [if_neg hle, Nat.mod_eq_of_lt (Nat.lt_of_not_le hle), zero_add]
      by_cases h0 : 0 < s
      · have := hs h0
        rw [if_pos (by omega : bpp ≤ s + j), if_pos h0, Nat.sub_add_comm this]
      · rw [if_neg (by omega : ¬ bpp ≤ s + j), if_neg h0]

/-- A block goes on with the row: with the row's bytes before the block it gives those up to the next one. -/
theorem subBlock_raw {w bpp : Nat} (hb : 0 < bpp) (hw : bpp ≤ w) {first : Bool} {up cod row : List Byte}
    (h : ObeysRecurrence .sub bpp first up cod row) {st : SubRun} {q : Nat} (hst : st.raw = row.take (q * w)) :
    (subBlock w bpp cod st q).raw = row.take ((q + 1) * w) := by
  have hs : 0 < q * w → bpp ≤ q * w := fun hpos =>
    hw.trans (Nat.le_mul_of_pos_left w (Nat.pos_of_mul_pos_right hpos))
  rw [Nat.succ_mul, List.take_add]
  simp only [subBlock, hst]
  refine congrArg (row.take (q * w) ++ ·) (eq_of_getD_eq ?_ fun j hj => ?_)
  · simp [h.length_eq]
  · have hj : j < min w (cod.length - q * w) := by simpa using hj
    have valid : j < w ∧ j < cod.length - q * w := lt_min_iff.mp hj
    have scan := subScan_getD hb (Nat.le_of_eq (subLoad_length w (q * w) (min w (cod.length - q * w)) cod))
      (j := j) (by simpa using valid.1)
    have carry := subCarry_getD (row := row) (Nat.mod_lt j hb) hs
    have byte := subRow_eq_block_add_carry hb h hs (n := min w (cod.length - q * w)) (by omega)
      (fun i hi => subLoad_getD hi (Nat.min_le_left ..)) hj
    rw [← scan, ← carry] at byte
    simpa [hj, valid.1] using byte.symm

/-- The row after `q` blocks, by induction on the blocks. -/
theorem subBlocks_raw {w bpp : Nat} (hb : 0 < bpp) (hw : bpp ≤ w) {first : Bool} {up cod row : List Byte}
    (h : ObeysRecurrence .sub bpp first up cod row) (unit : SubUnit) (q : Nat) :
    ((List.range q).foldl (subBlock w bpp cod) { raw := [], unit := unit }).raw = row.take (q * w) := by
  induction q with
  | zero => simp
  | succ q ih =>
    rw [List.range_succ, List.foldl_append]
    exact subBlock_raw hb hw h ih

/-- The blocks cover the row (R162). -/
theorem le_subBlocks_mul {w : Nat} (hw : 0 < w) (len : Nat) : len ≤ subBlocks w len * w := by
  have := Nat.lt_div_mul_add (a := len + (w - 1)) hw
  unfold subBlocks
  omega

/-- A legal stride is at most 8 (R3). -/
theorem bpp_le_of_mem {bpp : Nat} (h : bpp ∈ Config.bppSet) : bpp ≤ 8 := by
  simp only [Config.bppSet, List.mem_cons, List.not_mem_nil, or_false] at h
  omega

/-- Settles O45: after its last block the unit has given the whole row. -/
theorem subPrefixEqualsReference : Obligations.SubPrefixEqualsReference := by
  intro w bpp first up cod ⟨hw, _⟩ hbpp
  have hb := bpp_pos_of_mem hbpp
  have row := defilterRow_obeys .sub hb first up cod
  have raw := subBlocks_raw hb ((bpp_le_of_mem hbpp).trans hw) row { v := [], carry := [] } (subBlocks w cod.length)
  refine raw.trans (List.take_of_length_le ?_)
  rw [row.length_eq]
  exact le_subBlocks_mul (by omega) cod.length

end Sys2Proof.Machine
end

section
/-! The sequencer (R180 to R190): what each Engine step does, the phases it leads to, and how an operation ends. -/

namespace Sys2Proof.Machine

/-! ### The Engine's steps (R182 to R189) -/

/-- A read inside the data space fails only by an error response of the platform (R44, R244). -/
theorem portRead_error {s : State} {a : Nat} (ha : a < Config.dataSpace) (he : a ∈ s.errors.reads) :
    s.portRead a = .failed .errorResponse := by
  simp [State.portRead, Nat.not_le.2 ha, he]

theorem portRead_data {s : State} {a : Nat} (ha : a < Config.dataSpace) (he : a ∉ s.errors.reads) :
    s.portRead a = .ok (s.mem.read a) :=
  (portRead_ok_iff ..).2 ⟨ha, he, rfl⟩

section
variable {s : State}

theorem engineStep_idle (hp : s.phase = .idle) : engineStep s = .next s := by rw [engineStep, hp]
theorem engineStep_check (hp : s.phase = .check) : engineStep s = .next (checkStep s) := by rw [engineStep, hp]
theorem engineStep_scan (hp : s.phase = .scan) : engineStep s = scanStep s := by rw [engineStep, hp]
theorem engineStep_run (hp : s.phase = .run) : engineStep s = runStep s := by rw [engineStep, hp]

end

section
variable {s : State} (h : s.phase = .scan ∨ s.phase = .run)
include h

/-- SCAN and RUN answer an error response to the tag read alike (R183, R185, R188). -/
theorem engineStep_tagError (hr : s.portRead (s.cfg.rowBase s.r.toNat) = .failed .errorResponse) :
    engineStep s = .next (raiseMem s) := by
  rcases h with hp | hp
  · simp [engineStep_scan hp, scanStep, hr, portFailure]
  · simp [engineStep_run hp, runStep, hr, portFailure]

/-- And an illegal tag (R183, R189). -/
theorem engineStep_illegalTag {b : Byte} (hr : s.portRead (s.cfg.rowBase s.r.toNat) = .ok b)
    (hb : 5 ≤ b.toNat) : engineStep s = .next (endOperation .eTag s.r b s) := by
  have hd := (decodeTag_error_iff b).2 hb
  rcases h with hp | hp
  · simp [engineStep_scan hp, scanStep, hr, hd]
  · simp [engineStep_run hp, runStep, hr, hd]

end

/-- RUN runs the filter that the tag decodes to (R185). -/
theorem engineStep_decoded {s : State} (hp : s.phase = .run) {b : Byte} {i : Instr}
    (hr : s.portRead (s.cfg.rowBase s.r.toNat) = .ok b) (hd : decodeTag b = .ok i) : engineStep s = exec i s := by
  simp [engineStep_run hp, runStep, hr, hd]

/-- Settles O18: CHECK tests the stride before the geometry. -/
theorem checkStepValidates : Obligations.CheckStepValidates := by
  intro s hp hi hz
  have bppOk_iff : s.cfg.bppOk = true ↔ s.cfg.bpp.toNat ∈ [1, 2, 3, 4, 6, 8] := List.contains_iff_mem
  rw [step_nil hi, engineStep_check hp, ← bppOk_iff, ← geomOk_iff]
  rcases checkStep_cases s with ⟨hb, e⟩ | ⟨hb, hg, e⟩ | ⟨hb, hg, e⟩ <;> rw [e]
  · rw [endOperation_noHazard _ _ _ hz]
    exact ⟨fun _ => rfl, fun h => by simp [hb] at h, fun h => by simp [hb] at h⟩
  · rw [endOperation_noHazard _ _ _ hz]
    exact ⟨fun h => absurd hb h, fun _ _ => rfl, fun _ h => by simp [hg] at h⟩
  · exact ⟨fun h => absurd hb h, fun _ h => absurd hg h, fun _ _ => rfl⟩

/-- Settles O19: the tag read gets an error, an illegal tag, or a legal one. -/
theorem scanStepValidatesTag : Obligations.ScanStepValidatesTag := by
  intro s hp hi hz ha
  refine ⟨fun he => ?_, fun he => ?_⟩
  · exact ⟨raiseMem s, (step_nil hi).trans (engineStep_tagError (.inl hp) (portRead_error ha he)),
      raiseMem_phase s, raiseMem_regs hz⟩
  · have tag : s.portRead (s.cfg.rowBase s.r.toNat) = .ok (s.mem.tag s.cfg s.r.toNat) := portRead_data ha he
    refine ⟨fun h5 => ?_, fun h5 hn => ?_, fun h5 hl => ?_⟩
    · rw [step_nil hi, engineStep_illegalTag (.inl hp) tag h5, endOperation_noHazard _ _ _ hz]
    · rw [step_scan_legal hi hp tag h5]
      exact congrArg Host.Outcome.next (if_neg hn)
    · rw [step_scan_legal hi hp tag h5]
      exact congrArg Host.Outcome.next (if_pos hl)

/-- Settles O20: the Engine's turn as an event is its step on the state with that event taken. -/
theorem stepRunsDecodedFilter : Obligations.StepRunsDecodedFilter := by
  intro s i hp ha he hd
  have tag : s.portRead (s.cfg.rowBase s.r.toNat) = .ok (s.mem.tag s.cfg s.r.toNat) := portRead_data ha he
  refine ⟨fun hi => ?_, fun rest hi => ?_⟩
  · rw [step_nil hi, engineStep_decoded hp tag hd]
  · rw [step_cons hi]
    exact engineStep_decoded (s := s.withInputs rest) hp tag hd

/-- Settles O21: no filter runs, and nothing is drawn. -/
theorem runStepIllegalTag : Obligations.RunStepIllegalTag := by
  intro s hp hi hz ha he h5
  rw [step_nil hi, engineStep_illegalTag (.inr hp) (portRead_data ha he) h5]
  exact congrArg Host.Outcome.next (endOperation_noHazard _ _ _ hz)

/-- Settles O23: `finish` replaces the phase and the record. -/
theorem finishRecordsCompletion : Obligations.FinishRecordsCompletion :=
  fun _ _ _ _ => ⟨rfl, rfl, rfl, bne_iff_ne, rfl, rfl, rfl, rfl, rfl, rfl⟩

/-! ### Error responses (R188, R244) -/

/-- The bytes E_MEM leaves in an operation that no hazard struck: one draw of the region. -/
theorem raiseMem_mem {s : State} (h : s.opHazard = false) : (raiseMem s).mem = s.drawRegion.mem := by
  rw [raiseMem, endOperation_noHazard _ _ _ (by simpa using h), finish_mem, drawDatapath_mem]

/-- Settles O22: the tag read or an access of the row fails, and the step raises E_MEM. -/
theorem portErrorEndsOperation : Obligations.PortErrorEndsOperation := by
  intro s hi hz hwf hfit ha hfail
  have raised : engineStep s = .next (raiseMem s) := by
    rcases hfail with ⟨hp, he⟩ | ⟨hp, he, f, hd, hrow⟩
    · exact engineStep_tagError hp (portRead_error ha he)
    · have inSpace : s.cfg.payloadAt s.r.toNat + s.cfg.payloadLen ≤ Config.dataSpace := by
        simp only [Cfg.payloadAt, Cfg.payloadLen]
        omega
      rw [engineStep_decoded hp (portRead_data ha he) hd, exec_of_not_rowOk hrow inSpace]
  refine ⟨raiseMem s, (step_nil hi).trans raised, raiseMem_phase s, raiseMem_regs hz, fun a hlt hin => ?_,
    fun a => raiseMem_read_outside s⟩
  rw [raiseMem_mem hz]
  exact drawRegion_read_inside hwf hin hlt

/-! ### The phases (R180) -/

/-- The phases an Engine step leads to (R180). -/
inductive EngineArrow : Phase → Phase → Prop where
  | toIdle (p : Phase) : EngineArrow p .idle
  | accept : EngineArrow .check .scan
  | nextTag : EngineArrow .scan .scan
  | lastTag : EngineArrow .scan .run
  | nextRow : EngineArrow .run .run

namespace EngineArrow

variable {q : Phase}

theorem from_idle (h : EngineArrow .idle q) : q = .idle := by
  cases h
  rfl

theorem from_check (h : EngineArrow .check q) : q = .scan ∨ q = .idle := by
  cases h <;> simp

theorem from_scan (h : EngineArrow .scan q) : q = .scan ∨ q = .run ∨ q = .idle := by
  cases h <;> simp

theorem from_run (h : EngineArrow .run q) : q = .run ∨ q = .idle := by
  cases h <;> simp

end EngineArrow

theorem nextRow_arrow {s : State} (hp : s.phase = .run) : EngineArrow .run (nextRow s).phase := by
  rcases nextRow_cases s with ⟨_, e⟩ | ⟨_, e⟩ <;> rw [e]
  · exact hp.symm ▸ .nextRow
  · exact endOperation_phase .. ▸ .toIdle _

theorem engineStep_arrow {s t : State} (h : engineStep s = .next t) : EngineArrow s.phase t.phase := by
  rcases engineStep_cases h with
    ⟨hp, rfl⟩ | ⟨hp, rfl⟩ | ⟨_, rfl⟩ | ⟨b, _, _, _, rfl⟩ | ⟨b, hp, _, _, rfl⟩ | ⟨b, hp, _, _, _, rfl⟩
  · rw [hp]
    exact .toIdle _
  · rcases checkStep_cases s with ⟨_, e⟩ | ⟨_, _, e⟩ | ⟨_, _, e⟩ <;> rw [e]
    · exact endOperation_phase .. ▸ .toIdle _
    · exact endOperation_phase .. ▸ .toIdle _
    · exact hp ▸ .accept
  · exact raiseMem_phase s ▸ .toIdle _
  · exact endOperation_phase .. ▸ .toIdle _
  · rcases nextTag_cases s with ⟨_, e⟩ | ⟨_, e⟩ <;> rw [e]
    · exact hp ▸ .nextTag
    · exact hp ▸ .lastTag
  · rw [hp]
    split
    · exact nextRow_arrow hp
    · exact nextRow_arrow (s := rowWritten _ s) hp

/-- Of the host's register writes an accepted START alone changes the phase (R213, R215 to R218). -/
theorem hostRegWrite_phase (off : Nat) (size : AccessSize) (w : Word) (s : State) :
    (hostRegWrite off size w s).phase = s.phase ∨
    (s.phase = .idle ∧ (hostRegWrite off size w s).phase = .check ∧ off = 0x00 ∧ size = .word ∧
      w.getLsbD 0 = true) := by
  cases hok : regAccessOk off size with
  | false => exact .inl (by simp [hostRegWrite, hok])
  | true =>
    obtain ⟨hsize, _, _⟩ := (regAccessOk_iff ..).1 hok
    rcases hostRegWrite_cases off size w s with
      ⟨_, e⟩ | ⟨hoff, hb, hw, e⟩ | ⟨_, _, e⟩ | ⟨_, e⟩ | ⟨_, _, _, e⟩ | ⟨_, _, _, e⟩ <;> rw [e]
    case inr.inl => exact .inr ⟨by simpa [State.busy] using hb, rfl, hoff, hsize, hw⟩
    all_goals exact .inl rfl

/-- Of the events other than the Engine's turn and a reset an accepted START alone changes the phase (R180, R280). -/
theorem takeEvent_phase {e : Event} {s t : State} (he : e ≠ .engine) (hr : e ≠ .reset)
    (h : takeEvent e s = .next t) :
    t.phase = s.phase ∨
    (s.phase = .idle ∧ t.phase = .check ∧ ∃ w, e = .regWrite 0x00 .word w ∧ w.getLsbD 0 = true) := by
  cases e <;> simp only [takeEvent, Host.Outcome.next.injEq] at h
  case engine => exact absurd rfl he
  case reset => exact absurd rfl hr
  all_goals subst h
  case regRead off size => exact .inl (by unfold hostRegRead; split <;> rfl)
  case regWrite off size w =>
    rcases hostRegWrite_phase off size w s with h | ⟨hs, ht, rfl, rfl, hw⟩
    · exact .inl h
    · exact .inr ⟨hs, ht, w, rfl, hw⟩
  case dataRead a => exact .inl (by rcases hostDataRead_cases a s with ⟨_, e⟩ | ⟨_, e⟩ <;> rw [e])
  case dataWrite a b => exact .inl (by rcases hostDataWrite_cases a b s with ⟨_, e⟩ | ⟨_, e⟩ <;> rw [e])
  case takeIrq => exact .inl rfl
  case portErrors errs => exact .inl rfl
  case regionConflict => exact .inl (by unfold conflict; split <;> rfl)

/-- A step is the Engine's: nothing is asked, or the Engine's turn is next. -/
def State.engineTurn (s : State) : Prop := s.inputs = [] ∨ s.inputs.head? = some .engine

/-- The phase after the Engine's turn (R180). -/
theorem step_arrow {s t : State} (hturn : s.engineTurn) (h : step s = .next t) : EngineArrow s.phase t.phase := by
  cases hi : s.inputs with
  | nil => exact engineStep_arrow (step_nil hi ▸ h)
  | cons e rest =>
    obtain rfl : e = .engine := by simpa [State.engineTurn, hi] using hturn
    rw [step_cons hi] at h
    exact engineStep_arrow (s := s.withInputs rest) h

/-- The phase after an event that is not the Engine's turn: reset leads to IDLE, an accepted START to CHECK. -/
theorem step_event_phase {s t : State} {e : Event} {rest : List Event} (hi : s.inputs = e :: rest)
    (he : e ≠ .engine) (h : step s = .next t) :
    (e = .reset ∧ t.phase = .idle) ∨
    (e ≠ .reset ∧ t.phase = s.phase) ∨
    (e ≠ .reset ∧ s.phase = .idle ∧ t.phase = .check ∧
      ∃ w, e = .regWrite 0x00 .word w ∧ w.getLsbD 0 = true) := by
  rw [step_cons hi] at h
  by_cases hr : e = .reset
  · subst hr
    exact .inl ⟨rfl, Host.Outcome.next.inj h ▸ rfl⟩
  · rcases takeEvent_phase he hr h with hp | hstart
    · exact .inr (.inl ⟨hr, hp⟩)
    · exact .inr (.inr ⟨hr, hstart⟩)

/-- A step stays in IDLE, or is an accepted START and goes to CHECK (R181, R213). -/
theorem step_idle_phase {s t : State} (hp : s.phase = .idle) (h : step s = .next t) :
    t.phase = .idle ∨
    (t.phase = .check ∧ ∃ w rest, s.inputs = .regWrite 0x00 .word w :: rest ∧ w.getLsbD 0 = true) := by
  by_cases hturn : s.engineTurn
  · exact .inl (hp ▸ step_arrow hturn h).from_idle
  · cases hi : s.inputs with
    | nil => exact absurd (.inl hi) hturn
    | cons e rest =>
      have he : e ≠ .engine := fun h => hturn (.inr (by simp [hi, h]))
      rcases step_event_phase hi he h with ⟨_, ht⟩ | ⟨_, ht⟩ | ⟨_, _, ht, w, rfl, hw⟩
      · exact .inl ht
      · exact .inl (ht.trans hp)
      · exact .inr ⟨ht, w, rest, rfl, hw⟩

/-- Settles O16: the one event that leaves IDLE is an accepted START. -/
theorem idleLeftOnlyByStart : Obligations.IdleLeftOnlyByStart :=
  ⟨fun _ => engineStep_idle, fun _ _ hp hs hne => (step_idle_phase hp hs).resolve_left hne⟩

/-- Settles O17: the arrows of the Engine's turn, and the one arrow of each other event while busy. -/
theorem phaseChanges : Obligations.PhaseChanges := by
  intro s t hs
  refine ⟨fun hp => (step_idle_phase hp hs).imp_right And.left,
    fun hp hturn => (hp ▸ step_arrow hturn hs).from_check, fun hp hturn => (hp ▸ step_arrow hturn hs).from_scan,
    fun hp hturn => (hp ▸ step_arrow hturn hs).from_run, fun e rest hi he hp => ?_⟩
  rcases step_event_phase hi he hs with h | h | ⟨_, hidle, _⟩
  · exact .inl h
  · exact .inr h
  · exact absurd hidle hp

/-! ### The machine never stops, and an operation ends (R184, R194, R242) -/

/-- A filter on a row that ends inside the data space answers (R184). -/
theorem exec_next (f : Instr) {s : State} (h : s.cfg.payloadAt s.r.toNat + s.cfg.payloadLen ≤ Config.dataSpace) :
    ∃ t, exec f s = .next t := by
  rcases exec_cases f s with ⟨_, e⟩ | ⟨_, e⟩ | ⟨_, e⟩
  · exact ⟨_, e⟩
  · exact ⟨_, e⟩
  · obtain ⟨_, _, hlt⟩ := exec_fault e
    omega

/-- The tag of a row of a checked geometry is read, or gets an error response (R184, R244). -/
theorem portRead_tag_not_outside {s : State} (hg : s.cfg.geomOk = true) {r : Nat} (hr : r < s.cfg.height.toNat) :
    s.portRead (s.cfg.rowBase r) ≠ .failed .outside := by
  have hlt := lt_dataSpace_of_region hg (tag_in_region hg hr)
  unfold State.portRead
  rw [if_neg (Nat.not_le.2 hlt)]
  split <;> simp

theorem engineStep_next {s : State} (h : s.Inv) : ∃ t, engineStep s = .next t := by
  cases hp : s.phase with
  | idle => exact ⟨s, engineStep_idle hp⟩
  | check => exact ⟨checkStep s, engineStep_check hp⟩
  | scan =>
    obtain ⟨_, hg, hr⟩ := h.checkedRow (.inl hp)
    rw [engineStep_scan hp]
    rcases scanStep_cases s with ⟨_, e⟩ | ⟨hout, _⟩ | ⟨_, _, _, e⟩ | ⟨_, _, _, e⟩
    · exact ⟨_, e⟩
    · exact absurd hout (portRead_tag_not_outside hg hr)
    · exact ⟨_, e⟩
    · exact ⟨_, e⟩
  | run =>
    obtain ⟨_, hg, hr⟩ := h.checkedRow (.inr hp)
    rw [engineStep_run hp]
    rcases runStep_cases s with ⟨_, e⟩ | ⟨hout, _⟩ | ⟨_, _, _, e⟩ | ⟨b, _, _, e⟩
    · exact ⟨_, e⟩
    · exact absurd hout (portRead_tag_not_outside hg hr)
    · exact ⟨_, e⟩
    · exact e ▸ exec_next (filterOf b) (row_fits hg hr)

/-- Settles O50: the geometry of SCAN and RUN is checked, and every event answers. -/
theorem invariantStepAnswersNext : Obligations.InvariantStepAnswersNext := by
  intro s h
  cases hi : s.inputs with
  | nil => exact step_nil hi ▸ engineStep_next h
  | cons e rest =>
    rw [step_cons hi]
    cases e
    case engine => exact engineStep_next (withInputs_inv h rest)
    all_goals exact ⟨_, rfl⟩

/-- A bound on the Engine steps that an operation still takes: CHECK, a tag to SCAN and a row to RUN for each row
(R194). -/
def State.stepsLeft (s : State) : Nat :=
  match s.phase with
  | .idle => 0
  | .check => 1 + 2 * s.cfg.height.toNat
  | .scan => 2 * s.cfg.height.toNat - s.r.toNat
  | .run => s.cfg.height.toNat - s.r.toNat

theorem stepsLeft_idle {s : State} (h : s.phase = .idle) : s.stepsLeft = 0 := by
  simp [State.stepsLeft, h]

theorem stepsLeft_check {s : State} (h : s.phase = .check) : s.stepsLeft = 1 + 2 * s.cfg.height.toNat := by
  simp [State.stepsLeft, h]

theorem stepsLeft_scan {s : State} (h : s.phase = .scan) :
    s.stepsLeft = 2 * s.cfg.height.toNat - s.r.toNat := by
  simp [State.stepsLeft, h]

theorem stepsLeft_run {s : State} (h : s.phase = .run) : s.stepsLeft = s.cfg.height.toNat - s.r.toNat := by
  simp [State.stepsLeft, h]

/-- While the engine is busy there are steps left. -/
theorem stepsLeft_pos {s : State} (h : s.Inv) (hp : s.phase ≠ .idle) : 0 < s.stepsLeft := by
  cases hp' : s.phase with
  | idle => exact absurd hp' hp
  | check =>
    rw [stepsLeft_check hp']
    omega
  | scan =>
    obtain ⟨_, _, hr⟩ := h.checkedRow (.inl hp')
    rw [stepsLeft_scan hp']
    omega
  | run =>
    obtain ⟨_, _, hr⟩ := h.checkedRow (.inr hp')
    rw [stepsLeft_run hp']
    omega

theorem stepsLeft_nextTag {s : State} (h : s.Inv) (hp : s.phase = .scan) :
    (nextTag s).stepsLeft < s.stepsLeft := by
  obtain ⟨_, _, hr⟩ := h.checkedRow (.inl hp)
  rw [stepsLeft_scan hp]
  rcases nextTag_cases s with ⟨hn, e⟩ | ⟨hl, e⟩ <;> rw [e]
  · rw [stepsLeft_scan (s := { s with r := s.r + 1 }) hp]
    dsimp only
    bv_omega
  · rw [stepsLeft_run rfl]
    dsimp only
    bv_omega

theorem stepsLeft_nextRow {s : State} (h : s.Inv) (hp : s.phase = .run) :
    (nextRow s).stepsLeft < s.stepsLeft := by
  obtain ⟨_, _, hr⟩ := h.checkedRow (.inr hp)
  rcases nextRow_cases s with ⟨hn, e⟩ | ⟨_, e⟩ <;> rw [e]
  · rw [stepsLeft_run hp, stepsLeft_run (s := { s with r := s.r + 1 }) hp]
    dsimp only
    bv_omega
  · rw [stepsLeft_idle (endOperation_phase ..)]
    exact stepsLeft_pos h (by simp [hp])

/-- Every Engine step of a busy engine brings the operation nearer to its end, whatever it reads. -/
theorem stepsLeft_engineStep {s t : State} (h : s.Inv) (hp : s.phase ≠ .idle) (hs : engineStep s = .next t) :
    t.stepsLeft < s.stepsLeft := by
  have ended : ∀ u : State, u.phase = .idle → u.stepsLeft < s.stepsLeft := fun u hu => by
    rw [stepsLeft_idle hu]
    exact stepsLeft_pos h hp
  rcases engineStep_cases hs with
    ⟨hidle, _⟩ | ⟨hc, rfl⟩ | ⟨_, rfl⟩ | ⟨b, _, _, _, rfl⟩ | ⟨b, hscan, _, _, rfl⟩ | ⟨b, hrun, _, _, _, rfl⟩
  · exact absurd hidle hp
  · rcases checkStep_cases s with ⟨_, e⟩ | ⟨_, _, e⟩ | ⟨_, _, e⟩ <;> rw [e]
    · exact ended _ (endOperation_phase ..)
    · exact ended _ (endOperation_phase ..)
    · rw [stepsLeft_check hc, stepsLeft_scan rfl]
      dsimp only
      omega
  · exact ended _ (raiseMem_phase s)
  · exact ended _ (endOperation_phase ..)
  · exact stepsLeft_nextTag h hscan
  · split
    · exact stepsLeft_nextRow h hrun
    · exact stepsLeft_nextRow (rowWritten_inv _ h hrun) hrun

/-- With nothing asked meanwhile, the engine is idle after at most `stepsLeft` steps. -/
theorem run_reaches_idle {s : State} (h : s.Inv) (hi : s.inputs = []) :
    ∃ k ≤ s.stepsLeft, ∃ t, Host.Core.run core k s = .next t ∧ t.phase = .idle := by
  induction hn : s.stepsLeft using Nat.strong_induction_on generalizing s with
  | h n ih =>
    subst hn
    by_cases hp : s.phase = .idle
    · exact ⟨0, Nat.zero_le _, s, run_zero s, hp⟩
    · obtain ⟨u, hu⟩ := engineStep_next h
      have nearer := stepsLeft_engineStep h hp hu
      have frame := engineStep_frame hu
      obtain ⟨k, hk, t, hrun, ht⟩ := ih _ nearer (engineStep_inv h hu) (frame.inputs.trans hi) rfl
      exact ⟨k + 1, by omega, t, (run_succ ((step_nil hi).trans hu) k).trans hrun, ht⟩

/-- Settles O52: in CHECK `1 + 2 * height` steps are left. -/
theorem operationStepBound : Obligations.OperationStepBound := by
  intro s h hp hi
  rw [← stepsLeft_check hp]
  exact run_reaches_idle h hi

end Sys2Proof.Machine
end

section
/-! The result of a whole operation (R192): RUN reconstructs row after row, each from the reconstructed row above, and
leaves tags and the bytes outside the region alone. -/

namespace Sys2Proof.Machine

/-! ### A row of RUN as a payload (R110, R185) -/

/-- A filter that does not read the row above gives the same row whatever is above. -/
theorem defilterRow_up_irrelevant {f : Instr} (hf : readsUp f = false) (bpp : Nat) (first : Bool)
    (up up' cod : List Byte) : defilterRow f bpp first up cod = defilterRow f bpp first up' cod := by
  have pred : ∀ i raw, select f (operands i bpp first up raw) = select f (operands i bpp first up' raw) := by
    intro i raw
    cases f
    case none => rfl
    case sub => rfl
    all_goals cases hf
  have rows : ∀ raw, defilterFrom f bpp first up raw cod = defilterFrom f bpp first up' raw cod := by
    induction cod with
    | nil => exact fun raw => rfl
    | cons x cod ih =>
      intro raw
      rw [defilterFrom, defilterFrom, pred, ih]
  exact rows []

/-- Rows of a checked geometry, in a region whose accesses are all answered, are answered (R185). -/
theorem rowOk_of_regionOk (f : Instr) {s : State} (hg : s.cfg.geomOk = true) (hok : s.regionOk)
    (hr : s.r.toNat < s.cfg.height.toNat) : s.rowOk f := by
  have answered : ∀ r < s.cfg.height.toNat, ∀ i < s.cfg.payloadLen,
      s.cfg.payloadAt r + i < Config.dataSpace ∧ s.cfg.payloadAt r + i ∉ s.errors.reads ∧
        s.cfg.payloadAt r + i ∉ s.errors.writes := fun r hr i hi =>
    have inRegion := payload_in_region hr hi
    ⟨lt_dataSpace_of_region hg inRegion, hok _ inRegion⟩
  refine fun _ => ⟨fun i hi => ?_, fun i hi => ?_, fun _ _ i hi => ?_⟩
  · obtain ⟨hlt, hread, _⟩ := answered _ hr i hi
    exact ⟨hlt, hread⟩
  · obtain ⟨hlt, _, hwrite⟩ := answered _ hr i hi
    exact ⟨hlt, hwrite⟩
  · obtain ⟨hlt, hread, _⟩ := answered (s.r.toNat - 1) (by omega) i hi
    exact ⟨hlt, hread⟩

/-- A payload byte of another row is none of the row RUN works on. -/
theorem payload_not_inRow {s : State} {r i : Nat} (hr : r ≠ s.r.toNat) (hi : i < s.cfg.payloadLen) :
    ¬ s.inRow (s.cfg.payloadAt r + i) := by
  rintro ⟨hlo, hhi⟩
  simp only [Cfg.payloadAt, Cfg.payloadLen, Cfg.rowBase] at hlo hhi hi
  rcases Nat.lt_or_gt_of_ne hr with h | h
  all_goals
    have := Nat.mul_le_mul_right s.cfg.bpl.toNat h
    rw [Nat.succ_mul] at this
    omega

section
variable {f : Instr} {s t : State} (h : RowFrame f s t)
include h

/-- A row of RUN keeps every tag (R68). -/
theorem RowFrame.tag_eq (r : Nat) : t.mem.tag s.cfg r = s.mem.tag s.cfg r := h.mem _ (tag_not_inRow s r)

/-- And the payload of every other row. -/
theorem RowFrame.payload_eq {r : Nat} (hr : r ≠ s.r.toNat) : t.mem.payload s.cfg r = s.mem.payload s.cfg r :=
  payload_congr fun _ hi => h.mem _ (payload_not_inRow hr hi)

/-- And the bytes outside the region (R61). -/
theorem RowFrame.read_outside (hr : s.r.toNat < s.cfg.height.toNat) {a : Nat} (ha : s.cfg.region.has a = false) :
    t.mem.read a = s.mem.read a :=
  h.mem a fun hin => by simp [inRow_in_region hr hin] at ha

end

/-- Every filter, NONE too, leaves the row that the recurrence gives (R110, R120). -/
theorem exec_payload {f : Instr} {s : State} (hu : s.rowUnharmed) (hwf : s.mem.wf = true)
    (hb : s.cfg.bppOk = true) (hok : s.rowOk f) :
    ∃ t, exec f s = .next t ∧ RowFrame f s t ∧ t.mem.payload s.cfg s.r.toNat = rowBytes f s := by
  by_cases hf : f = .none
  · subst hf
    refine ⟨_, exec_none s, nextRow_rowFrame hu, ?_⟩
    rw [nextRow_unharmed_mem hu]
    exact (defilterRow_eq_coded (bpp_pos_of_bppOk hb) fun _ => rfl).symm
  · refine ⟨_, (exec_ok hok).trans (by rw [if_neg hf]), rowWritten_rowFrame f hu, ?_⟩
    obtain ⟨_, hw, _⟩ := hok hf
    rw [nextRow_unharmed_mem (s := rowWritten f s) hu]
    refine eq_of_getD_eq (by simp) fun i hi => ?_
    rw [payload_length] at hi
    rw [payload_getD _ _ _ _ hi]
    exact rowWritten_pixel hwf hw hi

/-! ### Row after row (R185, R192) -/

/-- A state `t` of the RUN phase of an operation that stood at `s` before it: rows below `t.r` are reconstructed, the
others still coded, and after the last row the operation is complete. -/
structure RowsDone (s t : State) : Prop where
  frame : EngineFrame s t
  regs : t.regs = if t.r = s.cfg.height then s.regs.complete .eNone 0 0 else s.regs
  phase : t.phase = if t.r = s.cfg.height then .idle else .run
  inv : t.Inv
  outside : ∀ a, s.cfg.region.has a = false → t.mem.read a = s.mem.read a
  tag : ∀ r, t.mem.tag s.cfg r = s.mem.tag s.cfg r
  reconstructed : ∀ r < t.r.toNat, t.mem.payload s.cfg r = goldenRow s.cfg s.mem r
  coded : ∀ r, t.r.toNat ≤ r → t.mem.payload s.cfg r = s.mem.payload s.cfg r

/-- RUN begins with no row done. -/
theorem RowsDone.start {s : State} (hinv : s.Inv) (busy : s.busy = true) (hb : s.cfg.bppOk = true)
    (hg : s.cfg.geomOk = true) : RowsDone s { s with phase := .run, r := 0 } := by
  have hpos := ((geomOk_iff _).1 hg).1
  have hne : (0 : Word) ≠ s.cfg.height := by bv_omega
  exact
    { frame := ⟨rfl, rfl, rfl, rfl, rfl, rfl, rfl, rfl, rfl⟩
      regs := (if_neg hne).symm
      phase := (if_neg hne).symm
      inv := firstRow_inv hinv busy hb hg .run
      outside := fun _ _ => rfl
      tag := fun _ => rfl
      reconstructed := fun _ hr => absurd hr (Nat.not_lt_zero _)
      coded := fun _ _ => rfl }

/-- The row that RUN computes next is the next row of the result: it reads the row's coded bytes and the reconstructed
row above (R192). -/
theorem RowsDone.rowBytes_eq {s t : State} (h : RowsDone s t) :
    rowBytes (filterOf (s.mem.tag s.cfg t.r.toNat)) t = goldenRow s.cfg s.mem t.r.toNat := by
  rw [rowBytes, h.frame.cfg, h.coded _ (Nat.le_refl _)]
  cases hr : t.r.toNat with
  | zero => simp [upBytes, hr, goldenRow]
  | succ r =>
    simp only [goldenRow, Nat.succ_ne_zero, decide_false]
    cases hf : readsUp (filterOf (s.mem.tag s.cfg (r + 1))) with
    | false => exact defilterRow_up_irrelevant hf ..
    | true =>
      have above : upBytes (filterOf (s.mem.tag s.cfg (r + 1))) t = goldenRow s.cfg s.mem r := by
        rw [← h.reconstructed r (by omega)]
        simp [upBytes, hf, hr, h.frame.cfg]
      rw [above]

section
variable {s t : State} (hi : s.inputs = []) (hz : s.opHazard = false) (hok : s.regionOk)
  (hlegal : s.mem.tagsLegal s.cfg)
include hi hz hok hlegal

/-- One RUN step does one row (R185). -/
theorem RowsDone.step (h : RowsDone s t) (hr : t.r ≠ s.cfg.height) :
    ∃ u, step t = .next u ∧ RowsDone s u ∧ u.r = t.r + 1 := by
  obtain ⟨hcfg, _, hzt, _, herr, _, hit, _, _⟩ := h.frame
  have hregs : t.regs = s.regs := h.regs.trans (if_neg hr)
  have hphase : t.phase = .run := h.phase.trans (if_neg hr)
  obtain ⟨bpp, geom, rt⟩ := h.inv.checkedRow (.inr hphase)
  have region : t.regionOk := by simpa only [State.regionOk, hcfg, herr] using hok
  have htag : t.mem.tag t.cfg t.r.toNat = s.mem.tag s.cfg t.r.toNat := hcfg ▸ h.tag _
  have step_eq := step_run_legal (hit.trans hi) hphase (portRead_tag geom region rt)
    (htag ▸ hlegal _ (hcfg ▸ rt))
  obtain ⟨u, hu, row, payload⟩ := exec_payload (f := filterOf (s.mem.tag s.cfg t.r.toNat)) (.inl (hzt.trans hz))
    h.inv.memWf bpp (rowOk_of_regionOk _ geom region rt)
  rw [htag, hu] at step_eq
  rw [hcfg, h.rowBytes_eq] at payload
  have other : ∀ r, r ≠ t.r.toNat → u.mem.payload s.cfg r = t.mem.payload s.cfg r :=
    fun r hne => hcfg ▸ row.payload_eq hne
  have next : u.r.toNat = t.r.toNat + 1 := by
    rw [row.r]
    bv_omega
  have turn : engineStep t = .next u := (step_nil (hit.trans hi)).symm.trans step_eq
  refine ⟨u, step_eq, ?_, row.r⟩
  constructor
  case frame => exact h.frame.trans (engineStep_frame turn)
  case regs => rw [row.regs, row.r, hcfg, hregs]
  case phase => rw [row.phase, row.r, hcfg, hphase]
  case inv => exact engineStep_inv h.inv turn
  case outside => exact fun a ha => (row.read_outside rt (hcfg ▸ ha)).trans (h.outside a ha)
  case tag => exact fun r => (hcfg ▸ row.tag_eq r).trans (h.tag r)
  case reconstructed =>
    intro r hlt
    by_cases hr' : r = t.r.toNat
    · exact hr' ▸ payload
    · exact (other r hr').trans (h.reconstructed r (by omega))
  case coded => exact fun r hle => (other r (by omega)).trans (h.coded r (by omega))

/-- RUN does all rows, one step each. -/
theorem RowsDone.run (h : RowsDone s t) {n : Nat} (hn : t.r.toNat + n = s.cfg.height.toNat) :
    ∃ u, Host.Core.run core n t = .next u ∧ RowsDone s u ∧ u.r = s.cfg.height := by
  induction n generalizing t with
  | zero => exact ⟨t, run_zero t, h, BitVec.eq_of_toNat_eq hn⟩
  | succ n ih =>
    obtain ⟨u, hu, hdone, hnext⟩ := h.step hi hz hok hlegal (by bv_omega)
    obtain ⟨v, hv, result⟩ := ih hdone (by rw [hnext]; bv_omega)
    exact ⟨v, (run_succ hu n).trans hv, result⟩

end

/-- Settles O53: CHECK, a step of SCAN for each row, and RUN row after row (`RowsDone`). -/
theorem operationResult : Obligations.OperationResult := by
  rintro s ⟨hinv, hp, hi, hz⟩ hb hg hok hlegal
  have check := run_succ (step_check hi hp hb hg) 0
  have scan := run_scan (s := { s with phase := .scan }) hi rfl hg hok hlegal
  have busy := (busy_iff s).2 (by simp [hp])
  obtain ⟨t, hrun, h, hr⟩ := (RowsDone.start hinv busy hb hg).run hi hz hok hlegal
    (n := s.cfg.height.toNat) (by simp)
  refine ⟨t, ?_, h.phase.trans (if_pos hr), h.regs.trans (if_pos hr), h.outside,
    fun r hlt => ⟨h.tag r, h.reconstructed r (hr ▸ hlt)⟩⟩
  rw [Nat.two_mul]
  exact (run_add check _).trans ((run_add scan _).trans hrun)

end Sys2Proof.Machine
end

section
/-! A tag that `withFetchWord` places is the one RUN reads next (log 4). -/

namespace Sys2Proof.Machine

/-- What `atRow` says: RUN is next, on a row of a checked geometry, and every access is answered. -/
theorem atRow_iff (s : State) :
    s.atRow = true ↔
      s.inputs = [] ∧ s.phase = .run ∧ s.cfg.bppOk = true ∧ s.cfg.geomOk = true ∧
        s.r.toNat < s.cfg.height.toNat ∧ s.errors.reads = [] ∧ s.errors.writes = [] := by
  simp [State.atRow, and_assoc]

/-- The one row of `len` bytes at address 0 (log 4). -/
theorem placeOneRow_cfg (s : State) (len : Nat) :
    (s.placeOneRow len).cfg =
      { base := 0, len := BitVec.ofNat 32 len, height := 1, bpl := BitVec.ofNat 32 len, bpp := 1 } := rfl

/-- A one-row operation is placed where RUN is next. -/
theorem placeOneRow_atRow (s : State) {len : Nat} (h2 : 2 ≤ len) (hlen : len < Config.dataSpace) :
    (s.placeOneRow len).atRow = true := by
  have len_toNat : (BitVec.ofNat 32 len).toNat = len := by simpa using hlen
  have geom : (s.placeOneRow len).cfg.geomOk = true := by
    rw [geomOk_iff, placeOneRow_cfg, len_toNat]
    exact ⟨Nat.le_refl 1, h2, Nat.mod_one _, (Nat.one_mul len).le, by simpa using hlen.le⟩
  exact (atRow_iff _).2 ⟨rfl, rfl, rfl, geom, Nat.zero_lt_one, rfl, rfl⟩

/-- What is stored as a row of `n` bytes: the given bytes, cut or followed by zeros (log 4). -/
theorem rowImage_length (bytes : List Byte) (n : Nat) :
    (bytes.take n ++ List.replicate (n - bytes.length) 0).length = n := by
  simp only [List.length_append, List.length_take, List.length_replicate]
  omega

/-- The first byte stored as a row is the row's tag. -/
theorem storeRow_tag {s : State} (hwf : s.mem.wf = true) (hg : s.cfg.geomOk = true)
    (hr : s.r.toNat < s.cfg.height.toNat) (b : Byte) (rest : List Byte) :
    (s.storeRow (b :: rest)).mem.tag s.cfg s.r.toNat = b := by
  obtain ⟨_, hbpl, _⟩ := (geomOk_iff _).1 hg
  have hpos : 0 < s.cfg.bpl.toNat := by omega
  have hfit : s.cfg.rowBase s.r.toNat + s.cfg.bpl.toNat ≤ Config.dataSpace := by
    have := row_fits hg hr
    simp only [Cfg.payloadAt, Cfg.payloadLen] at this
    omega
  have stored := read_writeBytes_inside hwf (s.cfg.rowBase s.r.toNat) 0
    ((b :: rest).take s.cfg.bpl.toNat ++ List.replicate (s.cfg.bpl.toNat - (b :: rest).length) 0)
    (by rwa [rowImage_length]) (by rwa [rowImage_length])
  obtain ⟨n, hn⟩ := Nat.exists_eq_add_of_le' hpos
  exact stored.trans (by simp [hn])

/-- The byte of a table word of 8 bits. -/
theorem wordBytes_eight (w : Nat) : wordBytes 8 w = [BitVec.ofNat 8 w] := by
  simp [wordBytes]

theorem decodeTag_of_tableWord {w : Nat} {i : Instr} (h : decodeTableWord 8 w = some i) :
    decodeTag (BitVec.ofNat 8 w) = .ok i := by
  rw [decodeTableWord, wordBytes_eight] at h
  rcases decodeTag_cases (BitVec.ofNat 8 w) with ⟨_, e⟩ | ⟨_, e⟩
  · simp only [e, Option.some.injEq] at h
    rw [e, h]
  · simp [e] at h

/-- A scanline stored where RUN is next is the one the next step runs, and the step answers (R185). -/
theorem step_storeRow {s : State} (h : s.atRow = true) (hwf : s.mem.wf = true) {b : Byte} {i : Instr}
    (hd : decodeTag b = .ok i) (rest : List Byte) :
    step (s.storeRow (b :: rest)) = exec i (s.storeRow (b :: rest)) ∧
    ∃ t, step (s.storeRow (b :: rest)) = .next t := by
  obtain ⟨hi, hp, _, hg, hr, herr, _⟩ := (atRow_iff s).1 h
  have ha := lt_dataSpace_of_region hg (tag_in_region hg hr)
  have he : s.cfg.rowBase s.r.toNat ∉ s.errors.reads := by simp [herr]
  have tag : (s.storeRow (b :: rest)).portRead (s.cfg.rowBase s.r.toNat) = .ok b :=
    (portRead_data (s := s.storeRow (b :: rest)) ha he).trans
      (congrArg PortAnswer.ok (storeRow_tag hwf hg hr b rest))
  have step_eq : step (s.storeRow (b :: rest)) = exec i (s.storeRow (b :: rest)) :=
    (step_nil (s := s.storeRow (b :: rest)) hi).trans (engineStep_decoded (s := s.storeRow (b :: rest)) hp tag hd)
  exact ⟨step_eq, step_eq ▸ exec_next i (s := s.storeRow (b :: rest)) (row_fits hg hr)⟩

/-- Settles O60: a row of the operation that RUN is at, or of a one-row operation at address 0. -/
theorem fetchWordRuns : Obligations.FetchWordRuns := by
  intro s i w hwf _ hd
  have decoded := decodeTag_of_tableWord hd
  rw [State.withFetchWord, wordBytes_eight, State.placeScanline]
  split
  · next h => exact step_storeRow h hwf decoded []
  · exact step_storeRow (placeOneRow_atRow s (Nat.le_max_left ..) (by simp [Config.dataSpace])) hwf decoded []

end Sys2Proof.Machine
end

section
/-! The host's side of the register block and of data memory (44_host_interface.md), and the record of a busy
engine (R214). -/

namespace Sys2Proof.Machine

/-! ### The record is 0 while busy (R214) -/

/-- The completion record is empty: DONE, ERR, ERR_CODE, ERR_ROW and ERR_TAG are 0. -/
def Regs.recordZero (g : Regs) : Prop :=
  g.done = false ∧ g.err = false ∧ g.errCode = .eNone ∧ g.errRow = 0 ∧ g.errTag = 0

/-- R214 of one state. -/
def State.busyRecordZero (s : State) : Prop := s.busy = true → s.regs.recordZero

theorem busyRecordZero_of_idle {s : State} (h : s.busy = false) : s.busyRecordZero :=
  fun hb => absurd hb (ne_true_of_eq_false h)

/-- The flags of an empty record are clear already (R216). -/
theorem clearFlags_of_recordZero {g : Regs} (h : g.recordZero) (w : Word) : g.clearFlags w = g := by
  cases g
  obtain ⟨rfl, rfl, _⟩ := h
  rfl

theorem checkStep_busyRecordZero {s : State} (h : s.regs.recordZero) : (checkStep s).busyRecordZero := by
  rcases checkStep_cases s with ⟨_, e⟩ | ⟨_, _, e⟩ | ⟨_, _, e⟩ <;> rw [e]
  · exact busyRecordZero_of_idle (endOperation_busy ..)
  · exact busyRecordZero_of_idle (endOperation_busy ..)
  · exact fun _ => h

theorem nextTag_busyRecordZero {s : State} (h : s.regs.recordZero) : (nextTag s).busyRecordZero := by
  rcases nextTag_cases s with ⟨_, e⟩ | ⟨_, e⟩ <;> rw [e] <;> exact fun _ => h

theorem nextRow_busyRecordZero {s : State} (h : s.regs.recordZero) : (nextRow s).busyRecordZero := by
  rcases nextRow_cases s with ⟨_, e⟩ | ⟨_, e⟩ <;> rw [e]
  · exact fun _ => h
  · exact busyRecordZero_of_idle (endOperation_busy ..)

/-- The Engine writes the record only where it ends the operation (R190). -/
theorem engineStep_busyRecordZero {s t : State} (h : s.busyRecordZero) (hs : engineStep s = .next t) :
    t.busyRecordZero := by
  have running {p : Phase} (hp : s.phase = p) (hne : p ≠ .idle) : s.regs.recordZero :=
    h ((busy_iff s).2 (hp ▸ hne))
  rcases engineStep_cases hs with
    ⟨_, rfl⟩ | ⟨hp, rfl⟩ | ⟨_, rfl⟩ | ⟨b, _, _, _, rfl⟩ | ⟨b, hp, _, _, rfl⟩ | ⟨b, hp, _, _, _, rfl⟩
  · exact h
  · exact checkStep_busyRecordZero (running hp nofun)
  · exact busyRecordZero_of_idle (endOperation_busy ..)
  · exact busyRecordZero_of_idle (endOperation_busy ..)
  · exact nextTag_busyRecordZero (running hp nofun)
  · split
    · exact nextRow_busyRecordZero (running hp nofun)
    · exact nextRow_busyRecordZero (s := rowWritten _ s) (running hp nofun)

/-- An accepted START empties the record, and no other register write puts anything into it (R213, R216). -/
theorem hostRegWrite_busyRecordZero {s : State} (h : s.busyRecordZero) (off : Nat) (size : AccessSize) (w : Word) :
    (hostRegWrite off size w s).busyRecordZero := by
  rcases hostRegWrite_cases off size w s with
    ⟨_, e⟩ | ⟨_, _, _, e⟩ | ⟨_, _, e⟩ | ⟨_, e⟩ | ⟨_, _, _, e⟩ | ⟨_, _, hidle, e⟩ <;> rw [e]
  · exact h
  · exact fun _ => ⟨rfl, rfl, rfl, rfl, rfl⟩
  · exact h
  · exact fun hb => (clearFlags_of_recordZero (h hb) w).symm ▸ h hb
  · exact h
  · exact busyRecordZero_of_idle hidle

theorem takeEvent_busyRecordZero {e : Event} {s t : State} (h : s.busyRecordZero) (hs : takeEvent e s = .next t) :
    t.busyRecordZero := by
  cases e <;> simp only [takeEvent, Host.Outcome.next.injEq] at hs
  case engine => exact engineStep_busyRecordZero h hs
  all_goals subst hs
  case regRead off size => unfold hostRegRead; split <;> exact h
  case regWrite off size w => exact hostRegWrite_busyRecordZero h off size w
  case dataRead a => rcases hostDataRead_cases a s with ⟨_, e⟩ | ⟨_, e⟩ <;> rw [e] <;> exact h
  case dataWrite a b => rcases hostDataWrite_cases a b s with ⟨_, e⟩ | ⟨_, e⟩ <;> rw [e] <;> exact h
  case takeIrq => exact h
  case portErrors errs => exact h
  case regionConflict => unfold conflict; split <;> exact h
  case reset => exact busyRecordZero_of_idle rfl

/-- Settles O51: the operation's end leaves the engine idle, and START, which makes it busy, empties the record. -/
theorem busyRecordZero : Obligations.BusyRecordZero := by
  intro s t h hs
  cases hi : s.inputs with
  | nil => exact engineStep_busyRecordZero h (step_nil hi ▸ hs)
  | cons e rest => exact takeEvent_busyRecordZero (s := s.withInputs rest) h (step_cons hi ▸ hs)

/-! ### Register reads (R210, R211) -/

theorem flagBit_getLsbD {n : Nat} (hn : n < 32) (b : Bool) (i : Nat) :
    (flagBit n b).getLsbD i = (b && decide (i = n)) := by
  cases b with
  | false => simp [flagBit]
  | true =>
    simp only [flagBit, if_true, BitVec.getLsbD_ofNat, Nat.testBit_two_pow, Bool.true_and, ← Bool.decide_and]
    exact decide_eq_decide.2 (by omega)

/-- CTRL bit by bit (R21). -/
theorem ctrlWord_getLsbD (s : State) (i : Nat) : s.ctrlWord.getLsbD i = (s.regs.irqEn && decide (i = 1)) :=
  flagBit_getLsbD (by decide) _ i

/-- STATUS bit by bit (R21): the flags in bits 0 to 2, ERR_CODE from bit 8 on. -/
theorem statusWord_getLsbD (s : State) (i : Nat) :
    s.statusWord.getLsbD i =
      ((s.busy && decide (i = 0)) || (s.regs.done && decide (i = 1)) || (s.regs.err && decide (i = 2)) ||
        (!decide (i < 8) && s.regs.errCode.bits.getLsbD (i - 8))) := by
  have code : ((s.regs.errCode.bits.setWidth 32) <<< 8).getLsbD i =
      (!decide (i < 8) && s.regs.errCode.bits.getLsbD (i - 8)) := by
    by_cases hi : i < 12
    · simp [show i < 32 by omega]
    · simp [BitVec.getLsbD_of_ge _ (i - 8) (show 4 ≤ i - 8 by omega)]
  simp only [State.statusWord, BitVec.getLsbD_or, flagBit_getLsbD, code, Nat.reduceLT]

/-- Above the flags STATUS holds ERR_CODE alone. -/
theorem statusWord_getLsbD_high (s : State) {i : Nat} (hi : 3 ≤ i) :
    s.statusWord.getLsbD i = (!decide (i < 8) && s.regs.errCode.bits.getLsbD (i - 8)) := by
  simp [statusWord_getLsbD, show i ≠ 0 by omega, show i ≠ 1 by omega, show i ≠ 2 by omega]

section
variable (s : State)

theorem busy_eq_decide : s.busy = decide (s.phase ≠ .idle) :=
  Bool.eq_iff_iff.2 ((busy_iff s).trans decide_eq_true_iff.symm)

theorem ctrlWord_reserved : s.ctrlWord.extractLsb' 2 30 = 0 := by
  refine BitVec.eq_of_getLsbD_eq fun i hi => ?_
  simp [BitVec.getLsbD_extractLsb', ctrlWord_getLsbD, show 2 + i ≠ 1 by omega]

theorem statusWord_errCode : s.statusWord.extractLsb' 8 4 = s.regs.errCode.bits := by
  refine BitVec.eq_of_getLsbD_eq fun i hi => ?_
  rw [BitVec.getLsbD_extractLsb', statusWord_getLsbD_high s (by omega)]
  simp [hi]

theorem statusWord_reserved_low : s.statusWord.extractLsb' 3 5 = 0 := by
  refine BitVec.eq_of_getLsbD_eq fun i hi => ?_
  rw [BitVec.getLsbD_extractLsb', statusWord_getLsbD_high s (by omega)]
  simp [show 3 + i < 8 by omega]

theorem statusWord_reserved_high : s.statusWord.extractLsb' 12 20 = 0 := by
  refine BitVec.eq_of_getLsbD_eq fun i _ => ?_
  rw [BitVec.getLsbD_extractLsb', statusWord_getLsbD_high s (by omega)]
  simp [BitVec.getLsbD_of_ge _ (12 + i - 8) (show 4 ≤ 12 + i - 8 by omega)]

/-- Offsets from 0x24 on read 0 (R37). -/
theorem regValue_reserved {off : Nat} (h : 0x24 ≤ off) : s.regValue off = 0 := by
  unfold State.regValue
  split
  case h_10 => rfl
  all_goals omega

end

/-- A field narrower than a word reads back from the low bits of its register (R21). -/
theorem zeroExtended_field {n : Nat} (hn : n ≤ 32) (x : BitVec n) : (x.setWidth 32).extractLsb' 0 n = x := by
  rw [← BitVec.setWidth_eq_extractLsb' hn, BitVec.setWidth_setWidth_of_le _ hn, BitVec.setWidth_eq]

/-- The bits above it read 0 (R21). -/
theorem zeroExtended_reserved {n : Nat} (x : BitVec n) (len : Nat) : (x.setWidth 32).extractLsb' n len = 0 := by
  refine BitVec.eq_of_getLsbD_eq fun i _ => ?_
  simp [BitVec.getLsbD_extractLsb']

/-- A defined register read answers the register's value (R211). -/
theorem hostRegRead_ok {s : State} {off : Nat} (h4 : off % 4 = 0) (hlt : off < 0x40) :
    ∃ seen, hostRegRead off .word s = { s.observeDone seen with resp := .word (s.regValue off) } :=
  ⟨_, if_pos ((regAccessOk_iff ..).2 ⟨rfl, h4, hlt⟩)⟩

/-- Settles O4: the word at each offset, field by field. -/
theorem registerReadsShowFields : Obligations.RegisterReadsShowFields := by
  intro s rest off hi h4 hlt
  obtain ⟨seen, hread⟩ := hostRegRead_ok (s := s.withInputs rest) h4 hlt
  refine ⟨_, s.regValue off, (step_cons hi).trans (congrArg Host.Outcome.next hread), rfl, ?_, ?_, ?_, ?_, ?_, ?_, ?_,
    ?_, ?_, regValue_reserved s⟩ <;> rintro rfl
  · exact ⟨(ctrlWord_getLsbD s 1).trans (by simp), (ctrlWord_getLsbD s 0).trans (by simp), ctrlWord_reserved s⟩
  · exact ⟨(statusWord_getLsbD s 0).trans (by simp [busy_eq_decide]), (statusWord_getLsbD s 1).trans (by simp),
      (statusWord_getLsbD s 2).trans (by simp), statusWord_errCode s, statusWord_reserved_low s,
      statusWord_reserved_high s⟩
  · rfl
  · rfl
  · rfl
  · rfl
  · exact ⟨zeroExtended_field (by decide) s.regs.bpp, zeroExtended_reserved s.regs.bpp 28⟩
  · rfl
  · exact ⟨zeroExtended_field (by decide) s.regs.errTag, zeroExtended_reserved s.regs.errTag 24⟩

/-- Settles O5: neither a read nor a write gets past the check of the access. -/
theorem undefinedRegisterAccessGetsBusError : Obligations.UndefinedRegisterAccessGetsBusError := by
  intro s rest off size w hbad hi
  have undefined : ¬ regAccessOk off size = true := mt (regAccessOk_iff ..).1 hbad
  rcases hi with hi | hi <;> rw [step_cons hi] <;> exact congrArg Host.Outcome.next (if_neg undefined)

/-! ### Register writes (R213 to R218) -/

/-- A register write is one step of the machine (R212). -/
theorem step_regWrite {s t : State} {off : Nat} {w : Word} {rest : List Event}
    (hi : s.inputs = .regWrite off .word w :: rest) (hw : hostRegWrite off .word w (s.withInputs rest) = t) :
    step s = .next t := (step_cons hi).trans (congrArg Host.Outcome.next hw)

/-- Settles O6: the fields of the state after an accepted START. -/
theorem acceptedStartSnapshots : Obligations.AcceptedStartSnapshots := by
  intro s rest w hi hidle hw
  have start := hostRegWrite_start (s := s.withInputs rest) hidle hw
  refine ⟨_, step_regWrite hi start, ?_⟩
  simp [State.busy, Regs.snapshot]

/-- A CTRL write that starts nothing sets IRQ_EN (R215). -/
theorem hostRegWrite_irqEn {s : State} {w : Word} (h : s.busy = true ∨ w.getLsbD 0 = false) :
    hostRegWrite 0x00 .word w s = { s with regs := { s.regs with irqEn := w.getLsbD 1 }, resp := .ack } := by
  have noStart : (!s.busy && w.getLsbD 0) = false := Bool.and_eq_false_iff.2 (h.imp_left fun hb => by simp [hb])
  exact congrArg (fun t : State => { t with resp := .ack }) (if_neg (ne_true_of_eq_false noStart))

/-- Settles O7: no operation starts, and IRQ_EN takes bit 1. -/
theorem ctrlWriteWithoutStart : Obligations.CtrlWriteWithoutStart := fun s rest _ hi h =>
  step_regWrite hi (hostRegWrite_irqEn (s := s.withInputs rest) h)

/-- A STATUS write clears flags (R216). -/
theorem hostRegWrite_status (w : Word) (s : State) :
    hostRegWrite 0x04 .word w s = { s with regs := s.regs.clearFlags w, resp := .ack } := rfl

/-- Settles O8: while busy the flags are clear already. -/
theorem statusWriteClearsFlags : Obligations.StatusWriteClearsFlags := by
  intro s rest w hi
  refine ⟨_, step_regWrite hi (hostRegWrite_status w _), rfl, rfl, ?_, ?_, ?_, ?_, fun hinv hb =>
    clearFlags_of_recordZero (hinv.busyRecord hb) w⟩ <;> intro hbit <;>
    simp only [clearFlags_done, clearFlags_err, withInputs_regs, hbit, Bool.not_true, Bool.and_false, Bool.not_false,
      Bool.and_true]

/-- Settles O9: which register the offset selects. -/
theorem configurationWriteWhileIdle : Obligations.ConfigurationWriteWhileIdle := by
  refine ⟨configurationHeldWhileBusy.1, fun s rest off w hi hidle ho => ⟨_, step_config_idle hidle ho hi, rfl, ?_⟩⟩
  refine ⟨?_, ?_, ?_, ?_, ?_⟩ <;> rintro rfl
  · rfl
  · rfl
  · rfl
  · rfl
  · rw [← BitVec.setWidth_eq_extractLsb' (by decide)]
    rfl

/-- No configuration register is at an offset from 0x1C on (R21). -/
theorem configure_of_ge {off : Nat} (h : 0x1C ≤ off) (w : Word) (g : Regs) : g.configure off w = g := by
  unfold Regs.configure
  split
  case h_6 => rfl
  all_goals omega

/-- A write to ERR_ROW, ERR_TAG or a reserved offset is answered and ignored (R218). -/
theorem hostRegWrite_readOnly {off : Nat} (h4 : off % 4 = 0) (hge : 0x1C ≤ off) (hlt : off < 0x40) (w : Word)
    (s : State) : hostRegWrite off .word w s = { s with resp := .ack } := by
  have hok : regAccessOk off .word = true := (regAccessOk_iff ..).2 ⟨rfl, h4, hlt⟩
  rcases hostRegWrite_cases off .word w s with
    ⟨hn, _⟩ | ⟨h, _⟩ | ⟨h, _⟩ | ⟨h, _⟩ | ⟨_, _, _, e⟩ | ⟨_, _, _, e⟩
  · simp [hok] at hn
  · omega
  · omega
  · omega
  · exact e
  · rw [e, configure_of_ge hge]

/-- Settles O11: while idle too, since no writable register is at such an offset. -/
theorem readOnlyWritesIgnored : Obligations.ReadOnlyWritesIgnored := fun _ _ _ w hi h4 hge hlt =>
  step_regWrite hi (hostRegWrite_readOnly h4 hge hlt w _)

/-! ### Data accesses (R219) -/

theorem readIsOpen_eq_false_iff (s : State) (a : Nat) :
    s.readIsOpen a = false ↔ (s.busy = true → s.cfg.region.has a = false) ∧ ¬ ∃ g ∈ s.unseen, g.has a = true := by
  rw [← Bool.not_eq_true, readIsOpen_iff, not_or, not_and, Bool.not_eq_true]

/-- A data write outside the running operation's region stores its byte, and takes no other from the open ones
(R219). -/
theorem step_dataWrite_ordinary {s : State} {a : Word} {b : Byte} {rest : List Event}
    (hi : s.inputs = .dataWrite a b :: rest) (hout : s.busy = true → s.cfg.region.has a.toNat = false) :
    ∃ gs, step s = .next { s with inputs := rest, resp := .ack, mem := s.mem.write a.toNat b, unseen := gs } ∧
      ∀ x, (∃ g ∈ gs, g.has x = true) ↔
        (∃ g ∈ s.unseen, g.has x = true) ∧ (x = a.toNat → s.regs.done = true ∧ s.cfg.region.has x = true) := by
  refine ⟨(hostDataWrite a b (s.withInputs rest)).unseen, ?_, fun x => ?_⟩
  · rcases hostDataWrite_cases a b (s.withInputs rest) with ⟨hstruck, _⟩ | ⟨_, e⟩
    · obtain ⟨hb, hin⟩ := Bool.and_eq_true_iff.1 hstruck
      exact absurd hin (ne_true_of_eq_false (hout hb))
    · rw [step_cons hi, takeEvent, e]
      rfl
  · rw [hostDataWrite_unseen_iff]
    refine and_congr_right fun _ => forall_congr' ?_
    rintro rfl
    cases hb : s.busy with
    | false => simp [State.endObservable, hb]
    | true => simp [State.endObservable, hout hb]

/-- Settles O13: the byte written is not open to the read that follows. -/
theorem hostDataAccessOutsideRunningRegion : Obligations.HostDataAccessOutsideRunningRegion := by
  refine ⟨fun s rest a hi hout hseen => ?_, fun s rest a b hi hwf hout => ?_, fun s rest a b hi hwf hout => ?_⟩
  · exact step_dataRead_closed hi ((readIsOpen_eq_false_iff ..).2 ⟨hout, by simpa using hseen⟩)
  · obtain ⟨gs, hs, hopen⟩ := step_dataWrite_ordinary hi hout
    exact ⟨_, hs, rfl, read_write_same hwf _ b, fun x hx => read_write_other _ b hx, hopen⟩
  · obtain ⟨gs, hs, hopen⟩ := step_dataWrite_ordinary hi fun hb => hout (.inl hb)
    have written : ¬ ∃ g ∈ gs, g.has a.toNat = true := fun ho => by
      obtain ⟨hdone, hin⟩ := ((hopen _).1 ho).2 rfl
      exact absurd hin (ne_true_of_eq_false (hout (.inr hdone)))
    refine ⟨_, (run_succ hs 1).trans (run_succ (step_dataRead_closed rfl ?_) 0),
      congrArg Response.data (read_write_same hwf _ b)⟩
    exact (readIsOpen_eq_false_iff ..).2 ⟨fun hb => hout (.inl hb), written⟩

end Sys2Proof.Machine
end

section
/-! How the machine reports: the E_TAG completion of an operation with an illegal tag (R193, R241), and the interrupt
output (R250). -/

namespace Sys2Proof.Machine

/-! ### The lowest illegal tag (R193, R241) -/

/-- A row of the operation as `eng.r` holds it (R41). -/
theorem rowWord_toNat {c : Cfg} {r : Nat} (hr : r < c.height.toNat) : (BitVec.ofNat 32 r).toNat = r :=
  Nat.mod_eq_of_lt (hr.trans c.height.isLt)

/-- Where the platform answers every access to the region, the tag of the row in `eng.r` is read (R183). -/
theorem portRead_rowTag {s : State} (hg : s.cfg.geomOk = true) (hok : s.regionOk) {r : Nat}
    (hr : r < s.cfg.height.toNat) :
    s.portRead (s.cfg.rowBase (BitVec.ofNat 32 r).toNat) = .ok (s.mem.tag s.cfg r) := by
  rw [rowWord_toNat hr]
  exact portRead_tag hg hok hr

/-- Above the last row, SCAN goes on to the next row (R183). -/
theorem nextTag_rowWord {s : State} {r : Nat} (hr : r + 1 < s.cfg.height.toNat) :
    nextTag { s with r := BitVec.ofNat 32 r } = { s with r := BitVec.ofNat 32 (r + 1) } := by
  have next_row : BitVec.ofNat 32 r + 1 = BitVec.ofNat 32 (r + 1) := (BitVec.ofNat_add r 1).symm
  have not_last : BitVec.ofNat 32 (r + 1) ≠ s.cfg.height := fun e =>
    Nat.ne_of_lt hr ((rowWord_toNat hr).symm.trans (congrArg BitVec.toNat e))
  rw [← next_row] at not_last ⊢
  exact if_neg not_last

/-- SCAN passes rows with legal tags, one step a row, and comes to the row below them (R183). -/
theorem run_scan_to {s : State} (hi : s.inputs = []) (hp : s.phase = .scan) (hg : s.cfg.geomOk = true)
    (hok : s.regionOk) {r : Nat} (hr : r < s.cfg.height.toNat) (hlegal : ∀ q < r, (s.mem.tag s.cfg q).toNat < 5) :
    Host.Core.run core r { s with r := 0 } = .next { s with r := BitVec.ofNat 32 r } := by
  induction r with
  | zero => rfl
  | succ r ih =>
    have hr' : r < s.cfg.height.toNat := by omega
    have above := ih hr' fun q hq => hlegal q (by omega)
    have scanned := step_scan_legal (s := { s with r := BitVec.ofNat 32 r }) hi hp (portRead_rowTag hg hok hr')
      (hlegal r r.lt_succ_self)
    rw [nextTag_rowWord hr] at scanned
    exact (run_add above 1).trans (run_succ scanned 0)

/-- SCAN of a row with an illegal tag ends an operation that no hazard struck (R183, R190). -/
theorem step_scan_illegal {s : State} (hi : s.inputs = []) (hp : s.phase = .scan) (hz : s.opHazard = false) {b : Byte}
    (hb : s.portRead (s.cfg.rowBase s.r.toNat) = .ok b) (h5 : 5 ≤ b.toNat) :
    step s = .next (finish .eTag s.r b s) := by
  rw [step_nil hi, engineStep_illegalTag (.inl hp) hb h5, endOperation_noHazard _ _ _ hz]

/-- Settles O54: one step of CHECK, one of SCAN for each row above the lowest illegal tag, and the one that finds it;
none of them writes. -/
theorem operationReportsLowestBadTag : Obligations.OperationReportsLowestBadTag := by
  rintro s r ⟨_, hp, hi, hz⟩ hb hg hok hr h5 hlegal
  have check := run_succ (step_check hi hp hb hg) 0
  have scan := run_scan_to (s := { s with phase := .scan }) hi rfl hg hok hr hlegal
  have found := step_scan_illegal (s := { s with phase := .scan, r := BitVec.ofNat 32 r }) hi rfl hz
    (portRead_rowTag hg hok hr) h5
  refine ⟨finish .eTag (BitVec.ofNat 32 r) (s.mem.tag s.cfg r) { s with phase := .scan, r := BitVec.ofNat 32 r },
    ?_, rfl, rfl, rfl, rfl⟩
  rw [show 2 + r = 1 + (r + 1) by omega]
  exact (run_add check _).trans ((run_add scan 1).trans (run_succ found 0))

/-! ### The interrupt output (R250) -/

theorem irq_iff (s : State) : s.irq = true ↔ s.regs.irqEn = true ∧ s.regs.done = true := Bool.and_eq_true_iff

/-- While DONE is 0 no interrupt is raised. -/
theorem irq_of_not_done {s : State} (h : s.regs.done = false) : s.irq = false := by simp [State.irq, h]

/-- `finish` sets DONE and keeps IRQ_EN (R190). -/
theorem finish_irq (code : ErrCode) (row : Word) (tag : Byte) (s : State) :
    (finish code row tag s).irq = s.regs.irqEn := Bool.and_true _

/-- A CTRL write that starts nothing shows DONE by the new IRQ_EN (R215); an accepted START clears DONE (R213). -/
theorem hostRegWrite_ctrl_irq (w : Word) (s : State) :
    (hostRegWrite 0x00 .word w s).irq = (w.getLsbD 1 && s.regs.done && !(!s.busy && w.getLsbD 0)) := by
  cases hstart : !s.busy && w.getLsbD 0 with
  | false =>
    have noStart : s.busy = true ∨ w.getLsbD 0 = false := by simpa using Bool.and_eq_false_iff.1 hstart
    rw [hostRegWrite_irqEn noStart]
    exact (Bool.and_true _).symm
  | true =>
    obtain ⟨hidle, hw⟩ := Bool.and_eq_true_iff.1 hstart
    rw [hostRegWrite_start (by simpa using hidle) hw, Bool.not_true, Bool.and_false]
    exact irq_of_not_done rfl

/-- Settles O12: what each write, and the reset, does to DONE and IRQ_EN. -/
theorem interruptIsEnabledDone : Obligations.InterruptIsEnabledDone := by
  refine ⟨irq_iff, fun code row tag s hen => (finish_irq code row tag s).trans hen, ?_, ?_, ?_⟩
  · intro s t rest w hi hw hs
    rw [step_regWrite hi (hostRegWrite_status w _)] at hs
    cases hs
    exact irq_of_not_done (by simp [hw])
  · intro s t rest w hi hs
    rw [step_regWrite hi rfl] at hs
    cases hs
    exact hostRegWrite_ctrl_irq w (s.withInputs rest)
  · intro s t rest hi hs
    rw [step_cons hi] at hs
    cases hs
    exact irq_of_not_done rfl

end Sys2Proof.Machine
end

section
/-! The reset input (R280, R281), and an operation that the hazard of R290 strikes: the mark, and how it ends. -/

namespace Sys2Proof.Machine

/-! ### The reset input (R280, R281) -/

@[simp] theorem resetEngine_inputs (s : State) : (resetEngine s).inputs = s.inputs := by
  unfold resetEngine
  split <;> rfl

/-- An idle engine's reset keeps data memory (R280). -/
theorem resetEngine_mem_idle {s : State} (h : s.busy = false) : (resetEngine s).mem = s.mem := by
  simp [resetEngine, h]

/-- A busy engine's reset leaves the aborted operation's region drawn (R281). -/
theorem resetEngine_mem_busy {s : State} (h : s.busy = true) : (resetEngine s).mem = s.drawRegion.mem := by
  simp [resetEngine, h]

/-- The reset is one step of the machine (R212). -/
theorem step_reset {s : State} {rest : List Event} (hi : s.inputs = .reset :: rest) :
    step s = .next (resetEngine (s.withInputs rest)) := step_cons hi

/-- What a register reads depends on the register block and the phase alone (R21, R25). -/
theorem regValue_congr {s t : State} (hregs : t.regs = s.regs) (hphase : t.phase = s.phase) (off : Nat) :
    t.regValue off = s.regValue off := by
  simp only [State.regValue, State.ctrlWord, State.statusWord, State.busy, hregs, hphase]

/-- Settles O2: the fields after a reset are those of the reset state, so the registers read as there. -/
theorem resetEventRestoresResetValues : Obligations.ResetEventRestoresResetValues := by
  intro s rest hi
  obtain ⟨_, _, _, _, _, _, _, readsZero⟩ := resetStateValues
  exact ⟨_, step_reset hi, resetEngine_inputs _, rfl, rfl, rfl, rfl, rfl, irq_of_not_done rfl,
    fun off => (regValue_congr rfl rfl off).trans (readsZero off), engineStep_idle rfl,
    resetEngine_mem_idle (s := s.withInputs rest)⟩

/-- Settles O3: of data memory the reset of a busy engine draws the region, and writes no more. -/
theorem resetWhileBusyDrawsRegion : Obligations.ResetWhileBusyDrawsRegion := by
  intro s rest hi hb hwf
  have drawn : (resetEngine (s.withInputs rest)).mem = s.drawRegion.mem := resetEngine_mem_busy hb
  refine ⟨_, step_reset hi, rfl, rfl, rfl, fun a hlt hin => ?_, fun a hout => ?_⟩ <;> rw [drawn]
  · exact drawRegion_read_inside hwf hin hlt
  · exact drawRegion_read_outside s hout

/-! ### The end of a struck operation (R290) -/

theorem recordableRow_cases (height w : Word) :
    recordableRow height w = 0 ∨ (recordableRow height w).toNat < height.toNat := by
  unfold recordableRow
  split
  · next h => exact .inr h
  · exact .inl rfl

/-- What an operation that the hazard struck, in state `s`, leaves when it ends: a record the engine can make, the
region drawn, and no byte outside it changed (R290, log 6). -/
structure StruckEnd (s t : State) : Prop where
  phase : t.phase = .idle
  done : t.regs.done = true
  err : t.regs.err = true ↔ t.regs.errCode ≠ .eNone
  inside : ∀ a < Config.dataSpace, s.cfg.region.has a = true →
    t.mem.read a = Config.freeByte (s.draws + (a - s.cfg.region.lo))
  outside : ∀ a, s.cfg.region.has a = false → t.mem.read a = s.mem.read a
  errRow : t.regs.errRow = 0 ∨ t.regs.errRow.toNat < s.cfg.height.toNat
  errTag : t.regs.errTag = 0 ∨ 5 ≤ t.regs.errTag.toNat

theorem finishHazard_struckEnd {s : State} (hwf : s.mem.wf = true) : StruckEnd s (finishHazard s) where
  phase := rfl
  done := rfl
  err := bne_iff_ne
  inside _ hlt hin := drawRegion_read_inside hwf hin hlt
  outside _ hout := drawRegion_read_outside s hout
  errRow := recordableRow_cases ..
  errTag := recordableTag_cases _

theorem endOperation_struckEnd (code : ErrCode) (row : Word) (tag : Byte) {s : State} (ho : s.opHazard = true)
    (hwf : s.mem.wf = true) : StruckEnd s (endOperation code row tag s) := by
  rw [endOperation, if_pos ho]
  exact finishHazard_struckEnd hwf

/-- Work on the region's bytes before the end does not show in what the end leaves. -/
theorem StruckEnd.of_region_written {s u t : State} (h : StruckEnd u t) (hcfg : u.cfg = s.cfg)
    (hdraws : u.draws = s.draws) (hmem : ∀ a, s.cfg.region.has a = false → u.mem.read a = s.mem.read a) :
    StruckEnd s t := by
  obtain ⟨phase, done, err, inside, outside, errRow, errTag⟩ := h
  rw [hcfg] at inside outside errRow
  rw [hdraws] at inside
  exact ⟨phase, done, err, inside, fun a ha => (outside a ha).trans (hmem a ha), errRow, errTag⟩

/-! ### The last row of a struck operation (R185, R290) -/

/-- The end of the last RUN step of a struck operation ends it so. -/
theorem nextRow_struckEnd {s : State} (ho : s.opHazard = true) (hl : s.r + 1 = s.cfg.height)
    (hwf : s.mem.wf = true) : StruckEnd s (nextRow s) := by
  rcases nextRow_cases s with ⟨hn, _⟩ | ⟨_, e⟩
  · exact absurd hl hn
  · rw [e]
    have ended : StruckEnd { s with r := s.r + 1 } _ := endOperation_struckEnd .eNone 0 0 ho hwf
    exact ended.of_region_written rfl rfl fun _ _ => rfl

/-- Writing a row of a checked geometry keeps the canonical form. -/
theorem rowWritten_wf (f : Instr) {s : State} (hwf : s.mem.wf = true) (hg : s.cfg.geomOk = true)
    (hr : s.r.toNat < s.cfg.height.toNat) : (rowWritten f s).mem.wf = true :=
  wf_writeBytes hwf _ _ (by simpa using row_fits hg hr)

/-- Settles O30: the row a filter writes lies in the region, all of which is then drawn. -/
theorem lastRowUnderHazard : Obligations.LastRowUnderHazard := by
  intro f s ho hl hwf hg hr hok
  have ended : StruckEnd s (nextRow (if f = .none then s else rowWritten f s)) := by
    split
    · exact nextRow_struckEnd ho hl hwf
    · refine (nextRow_struckEnd (s := rowWritten f s) ho hl (rowWritten_wf f hwf hg hr)).of_region_written rfl rfl
        fun a hout => rowWritten_read_outside f fun hin => ?_
      exact absurd (inRow_in_region hr hin) (ne_true_of_eq_false hout)
  exact ⟨_, exec_ok hok, ended.phase, ended.done, ended.err, ended.inside, ended.outside⟩

/-! ### The hazard mark (R290) -/

/-- No event but the reset clears the mark. -/
theorem takeEvent_keeps_hazard {e : Event} {s t : State} (hr : e ≠ .reset) (hz : s.hazard = true)
    (hs : takeEvent e s = .next t) : t.hazard = true := by
  cases e <;> simp only [takeEvent, Host.Outcome.next.injEq] at hs
  case engine => exact (engineStep_frame hs).hazard.trans hz
  case reset => exact absurd rfl hr
  all_goals subst hs
  case regRead off size => unfold hostRegRead; split <;> exact hz
  case regWrite off size w =>
    rcases hostRegWrite_cases off size w s with
      ⟨_, e⟩ | ⟨_, _, _, e⟩ | ⟨_, _, e⟩ | ⟨_, e⟩ | ⟨_, _, _, e⟩ | ⟨_, _, _, e⟩ <;> rw [e] <;> exact hz
  case dataRead a => rcases hostDataRead_cases a s with ⟨_, e⟩ | ⟨_, e⟩ <;> rw [e] <;> exact hz
  case dataWrite a b =>
    rcases hostDataWrite_cases a b s with ⟨_, e⟩ | ⟨_, e⟩ <;> rw [e]
    exact hz
  case takeIrq => exact hz
  case portErrors errs => exact hz
  case regionConflict =>
    unfold conflict
    split
    · rfl
    · exact hz

theorem step_keeps_hazard {s t : State} (hz : s.hazard = true) (hr : s.inputs.head? ≠ some .reset)
    (hs : step s = .next t) : t.hazard = true := by
  cases hi : s.inputs with
  | nil => exact (engineStep_frame (step_nil hi ▸ hs)).hazard.trans hz
  | cons e rest =>
    have notReset : e ≠ .reset := fun h => hr (by rw [hi, h, List.head?_cons])
    exact takeEvent_keeps_hazard (s := s.withInputs rest) notReset hz (step_cons hi ▸ hs)

/-- A host write to a byte of the running operation's region strikes it. -/
theorem hostDataWrite_strikes {a : Word} {s : State} (h : s.busyRegion a.toNat = true) (b : Byte) :
    (hostDataWrite a b s).hazard = true ∧ (hostDataWrite a b s).opHazard = true := by
  rcases hostDataWrite_cases a b s with ⟨_, e⟩ | ⟨hn, _⟩
  · rw [e]
    exact ⟨rfl, rfl⟩
  · exact absurd h (ne_true_of_eq_false hn)

/-- Settles O14: a region byte of a running operation is open to the host's reads, and a write to it strikes the
operation. -/
theorem hostAccessToBusyRegion : Obligations.HostAccessToBusyRegion := by
  refine ⟨fun s rest a hi hb hin => ?_, fun s rest a b hi hb hin => ?_, fun s t => step_keeps_hazard,
    fun code row tag s ho hwf => ?_⟩
  · exact step_dataRead_open hi ((readIsOpen_iff ..).2 (.inl ⟨hb, hin⟩))
  · exact ⟨_, step_cons hi, hostDataWrite_strikes (s := s.withInputs rest) (Bool.and_eq_true_iff.2 ⟨hb, hin⟩) b⟩
  · obtain ⟨phase, done, err, inside, outside, errRow, errTag⟩ := endOperation_struckEnd code row tag ho hwf
    exact ⟨_, rfl, phase, done, err, inside, outside, errRow, errTag⟩

end Sys2Proof.Machine
end
